-- ==== Sys2Proof/Word.lean ====
section
/-! DEFINITION. The widths of the machine's values (R3, R4 of spec/00_scope.md). Every value is unsigned (R6). -/

namespace Sys2Proof

/-- A register or a memory cell: 8 bits (R3 REG_WIDTH and BYTE_WIDTH). -/
abbrev Byte := BitVec 8

/-- An opcode, a call-stack entry or an instruction pointer: 16 bits (R3, R4). -/
abbrev Word := BitVec 16

/-- An index into the register file of 16 registers (R3 NUM_REGS, R10). -/
abbrev RegIndex := Fin 16

/-- The 12-bit address of a CALL or of a host LOAD (R51, R112). -/
abbrev MemAddr := BitVec 12

end Sys2Proof
end

