-- ==== Sys2Proof/Machine/Flags.lean ====
section
/-! DEFINITION. The ALU's one operation and the one flag (R91 of spec/41_alu.md, R16 of spec/10_state.md). -/

namespace Sys2Proof.Machine

/-- The exact sum in 9 bits (R90): `zext_9(a) + zext_9(b)`. -/
def wideSum (a b : Byte) : BitVec 9 := a.setWidth 9 + b.setWidth 9

/-- The result of the addition, bits 7:0 of the exact sum (R90, R91). -/
def aluSum (a b : Byte) : Byte := (wideSum a b).extractLsb' 0 8

/-- The flag of the addition, `zext_8` of bit 8 of the exact sum: all 8 bits, 0 or 1 (R90, R16). -/
def aluCarry (a b : Byte) : Byte := ((wideSum a b).extractLsb' 8 1).setWidth 8

end Sys2Proof.Machine
end

