-- ==== Sys2Proof/Config.lean ====
section
/-! DEFINITION. The parameters of the hardware (R3 of spec/00_scope.md) and the one that the spec leaves open (R4, R166). -/

namespace Sys2Proof

/-- MEM_SIZE, bytes of memory (R3). -/
@[simp] abbrev Config.memSize : Nat := 4096

/-- STACK_DEPTH, call-stack entries (R3). -/
@[simp] abbrev Config.stackDepth : Nat := 16

/-- FLAG_REG, the index of the flag register VF (R3, R11). -/
@[simp] abbrev Config.flagReg : RegIndex := 15

/-- RESET_IP, the instruction pointer after reset (R3, R161). -/
@[simp] abbrev Config.resetIp : Word := 0

/-- Bytes of one instruction, by which step 2 of the cycle advances IP (R50, R72). -/
@[simp] abbrev Config.instrBytes : Word := 2

/-- CYCLES_PER_INSTR, the clocks that an instruction cycle with this opcode takes (R4, R166; D16).
The spec leaves it open and no rule depends on it: nothing in the machine reads it. -/
opaque Config.cyclesPerInstr : Word → Nat

end Sys2Proof
end

