-- ==== Sys2Proof/Syntax.lean ====
section
/-! DEFINITION. The instruction set: one constructor per row of spec/opcode_table.json (R53 of spec/30_encoding.md). The set is closed (R57). -/

namespace Sys2Proof

/-- The four instructions. Operands carry their width in their type: a register index is a 4-bit number and so
always in bounds (R10, R55), and nnn is a 12-bit address (R55). -/
inductive Instr where
  /-- HALT, 0x0000 (R75). -/
  | halt
  /-- ADD Vx, Vy, 0x8xy4 (R90). -/
  | add (x y : RegIndex)
  /-- RET, 0x00EE (R101). -/
  | ret
  /-- CALL nnn, 0x2nnn (R100). -/
  | call (nnn : MemAddr)
  deriving DecidableEq, Repr

end Sys2Proof
end

