-- ==== Sys2Proof/WellFormed.lean ====
section
/-! DEFINITION. Well-formedness. An assembler line (R59 of spec/30_encoding.md) has operands that are plain numerals; the
checks here are that each fits its field. An instruction is well formed when the line that writes it is. -/

namespace Sys2Proof

/-- One line of assembler (R59): an instruction with numerals as operands, or the directive `.word v`. -/
inductive AsmLine where
  | halt
  | add (x y : Nat)
  | ret
  | call (nnn : Nat)
  /-- `.word v`: the 16-bit value v, placed as it is. -/
  | word (v : Nat)
  deriving DecidableEq, Repr

/-- A register operand is one hexadecimal digit (R59, R10). -/
def regOperandOk (i : Nat) : Bool := i < 16

/-- An address operand is 0 to 0xFFF (R59, R55). -/
def addrOperandOk (nnn : Nat) : Bool := nnn < 4096

/-- The value of `.word` is a 16-bit value (R59). -/
def wordOperandOk (v : Nat) : Bool := v < 65536

/-- Every operand of the line fits its field (R59). -/
def AsmLine.wf : AsmLine → Bool
  | .halt => true
  | .add x y => regOperandOk x && regOperandOk y
  | .ret => true
  | .call nnn => addrOperandOk nnn
  | .word v => wordOperandOk v

/-- The assembler line that writes an instruction (R59). -/
def Instr.toAsm : Instr → AsmLine
  | .halt => .halt
  | .add x y => .add x.val y.val
  | .ret => .ret
  | .call nnn => .call nnn.toNat

/-- An instruction is well formed when the line that writes it is. The operand types make this hold of every
instruction (R10: indices are in bounds by construction); Laws/Encoding.lean proves it. -/
def Instr.wf (i : Instr) : Bool := i.toAsm.wf

end Sys2Proof
end

