-- ==== Sys2Proof/Decode.lean ====
section
/-! DEFINITION. The decoder, the encoder, the byte order and the assembler, from spec/30_encoding.md and R30 of
spec/20_memory.md. -/

namespace Sys2Proof

/-! ### Byte order (R30) -/

/-- The most significant byte, stored at the lower address (R30). -/
def highByte (v : Word) : Byte := v.extractLsb' 8 8

/-- The least significant byte, stored at the higher address (R30). -/
def lowByte (v : Word) : Byte := v.extractLsb' 0 8

/-- The word whose bytes are `hi` at the lower address and `lo` at the higher one (R7, R30). -/
def wordOfBytes (hi lo : Byte) : Word := hi ++ lo

/-! ### The five fields of an opcode (R51) -/

/-- c, bits 15:12 (R51). -/
def fieldC (op : Word) : BitVec 4 := op.extractLsb' 12 4

/-- x, bits 11:8 (R51). -/
def fieldX (op : Word) : BitVec 4 := op.extractLsb' 8 4

/-- y, bits 7:4 (R51). -/
def fieldY (op : Word) : BitVec 4 := op.extractLsb' 4 4

/-- d, bits 3:0 (R51). -/
def fieldD (op : Word) : BitVec 4 := op.extractLsb' 0 4

/-- nnn, bits 11:0 (R51). -/
def fieldNNN (op : Word) : MemAddr := op.extractLsb' 0 12

/-- A 4-bit field taken as a register index, as it is (R55). -/
def regOfField (n : BitVec 4) : RegIndex := ⟨n.toNat, n.isLt⟩

/-- A register index as the 4-bit field that names it (R55). -/
def fieldOfReg (i : RegIndex) : BitVec 4 := BitVec.ofNat 4 i.val

/-! ### Decoding -/

/-- Why bytes are not an instruction. -/
inductive DecodeReject where
  /-- The word matches none of the four patterns (R56). Executing it raises UnimplementedOpcode (R76). -/
  | unimplementedOpcode (op : Word)
  /-- Fewer than the two bytes of an instruction (R50). A fetch never produces this: it reads two bytes or none (R71). -/
  | tooFewBytes
  deriving DecidableEq, Repr

/-- Step 4's choice of pattern, in the order of R53's table. -/
def decodeWord (op : Word) : Except DecodeReject Instr :=
  if fieldC op = 0x0 ∧ fieldX op = 0x0 ∧ fieldY op = 0x0 ∧ fieldD op = 0x0 then .ok .halt
  else if fieldC op = 0x8 ∧ fieldD op = 0x4 then .ok (.add (regOfField (fieldX op)) (regOfField (fieldY op)))
  else if fieldC op = 0x0 ∧ fieldX op = 0x0 ∧ fieldY op = 0xE ∧ fieldD op = 0xE then .ok .ret
  else if fieldC op = 0x2 then .ok (.call (fieldNNN op))
  else .error (.unimplementedOpcode op)

/-- Decode the instruction at the head of a byte sequence and give the bytes after it (R50, R30). -/
def decodeBytes : List Byte → Except DecodeReject (Instr × List Byte)
  | hi :: lo :: rest =>
    match decodeWord (wordOfBytes hi lo) with
    | .ok i => .ok (i, rest)
    | .error r => .error r
  | _ => .error .tooFewBytes

/-! ### Encoding -/

/-- The word of an instruction (R52, R53). -/
def encode : Instr → Word
  | .halt => 0x0000
  | .add x y => (0x8#4 ++ fieldOfReg x ++ fieldOfReg y ++ 0x4#4 : BitVec 16)
  | .ret => 0x00EE
  | .call nnn => (0x2#4 ++ nnn : BitVec 16)

/-- The two bytes of an instruction, the one at the lower address first (R30). -/
def encodeBytes (i : Instr) : List Byte := [highByte (encode i), lowByte (encode i)]

/-! ### The opcode table (R53, spec/opcode_table.json) -/

/-- A row of the opcode map: an opcode matches when `op &&& mask = pattern` (R53). -/
structure OpcodeRow where
  pattern : Word
  mask : Word
  deriving DecidableEq, Repr

/-- Whether an opcode matches a row (R53). -/
def OpcodeRow.matchesWord (r : OpcodeRow) (op : Word) : Bool := op &&& r.mask == r.pattern

/-- HALT's row (R53 row 1). -/
def haltRow : OpcodeRow := ⟨0x0000, 0xFFFF⟩
/-- ADD's row (R53 row 2). -/
def addRow : OpcodeRow := ⟨0x8004, 0xF00F⟩
/-- RET's row (R53 row 3). -/
def retRow : OpcodeRow := ⟨0x00EE, 0xFFFF⟩
/-- CALL's row (R53 row 4). -/
def callRow : OpcodeRow := ⟨0x2000, 0xF000⟩

/-- The opcode map, in the table's order (R53). -/
def opcodeTable : List OpcodeRow := [haltRow, addRow, retRow, callRow]

/-- The row of an instruction (R53). -/
def opcodeRow : Instr → OpcodeRow
  | .halt => haltRow
  | .add _ _ => addRow
  | .ret => retRow
  | .call _ => callRow

/-! ### Words as spec/opcode_table.json numbers them -/

/-- The word whose bits are `w`, of which `nbits` are given and the bits above are 0. -/
def tableWord (nbits w : Nat) : Word := BitVec.ofNat 16 (w % 2 ^ nbits)

/-- The instruction the decoder reads from a word of the opcode table, laid out in memory as R30 says. -/
def decodeTableWord (nbits w : Nat) : Option Instr :=
  match decodeBytes [highByte (tableWord nbits w), lowByte (tableWord nbits w)] with
  | .ok (i, _) => some i
  | .error _ => none

/-! ### Assembler (R59) -/

/-- The word a line assembles to, by R59's arithmetic; none for a line with an operand that does not fit. -/
def assemble (l : AsmLine) : Option Word :=
  if l.wf then
    some (BitVec.ofNat 16 (match l with
      | .halt => 0x0000
      | .add x y => 0x8000 + x * 2 ^ 8 + y * 2 ^ 4 + 4
      | .ret => 0x00EE
      | .call nnn => 0x2000 + nnn
      | .word v => v))
  else none

/-- The hexadecimal digit of a number below 16 (R59 writes registers V0 to VF). -/
def hexDigit (n : Nat) : Char := "0123456789ABCDEF".toList.getD n '?'

/-- The `digits` low hexadecimal digits of a number, most significant first. -/
def hexNumeral : Nat → Nat → List Char
  | 0, _ => []
  | digits + 1, n => hexNumeral digits (n / 16) ++ [hexDigit (n % 16)]

/-- The text of a line in R59's syntax, numerals written in hexadecimal. -/
def asmText : AsmLine → List Char
  | .halt => "HALT".toList
  | .add x y => "ADD V".toList ++ [hexDigit x] ++ ", V".toList ++ [hexDigit y]
  | .ret => "RET".toList
  | .call nnn => "CALL 0x".toList ++ hexNumeral 3 nnn
  | .word v => ".word 0x".toList ++ hexNumeral 4 v

/-- The text of a line with the byte address it is loaded at (R59: `addr:`). -/
def asmTextAt (address : MemAddr) (l : AsmLine) : List Char :=
  "0x".toList ++ hexNumeral 3 address.toNat ++ ": ".toList ++ asmText l

end Sys2Proof
end

