-- ==== Sys2Proof/Machine/State.lean ====
section
/-! DEFINITION. The state of the machine: the nine items of spec/10_state.md's summary table and nothing else (R24, R26). -/

namespace Sys2Proof.Machine

/-- Memory, as the cells that do not hold what an unlisted cell holds (R19). -/
abbrev Memory := List Host.Cell

/-- What an unlisted cell reads as: reset zeroes all 4096 cells (R25). -/
def unlistedByte : Byte := 0

/-- The canonical form of a memory: addresses strictly rising and inside memory, no entry equal to an unlisted cell. -/
abbrev Memory.wf (m : Memory) : Prop :=
  (m.map Prod.fst).Pairwise (· < ·) ∧ ∀ c ∈ m, c.1 < Config.memSize ∧ c.2 ≠ unlistedByte

/-- STATUS, where the core is in its life (R20). -/
inductive Status where
  /-- Created, not yet run. -/
  | idle
  /-- Instruction cycles are being performed. -/
  | running
  /-- The run ended by HALT. -/
  | halted
  /-- The run ended by a fault. -/
  | faulted
  deriving DecidableEq, Repr

/-- The four kinds of fault (R130). The value None of FAULT_KIND is the absence of one. -/
inductive FaultKind where
  | stackOverflow
  | stackUnderflow
  | unimplementedOpcode
  | fetchOutOfBounds
  deriving DecidableEq, Repr

/-- The Machine State (R24, R26; spec/10_state.md, summary table). -/
structure State where
  /-- The general registers V[0] to V[15] (R10); V[15] is the flag register (R11, R16). -/
  v : Vector Byte 16
  /-- The memory array MEM (R19). -/
  mem : Memory
  /-- The instruction pointer IP (R13). -/
  ip : Word
  /-- The call stack STACK, no part of memory (R17). -/
  stack : Vector Word 16
  /-- The stack pointer SP, the number of return addresses pushed (R18). -/
  sp : BitVec 5
  /-- STATUS (R20). -/
  status : Status
  /-- FAULT_KIND (R21), `none` for the value None. -/
  faultKind : Option FaultKind
  /-- FAULT_OPCODE, the opcode of the cycle that faulted (R22). -/
  faultOpcode : Word
  /-- FAULT_IP, the address of the cycle that faulted (R23). -/
  faultIp : Word
  deriving DecidableEq, Repr

/-- Why a step can stop. The four faults of R130 are no stops: they enter STATUS = FAULTED, a next state (R137). -/
inductive Fault where
  /-- Raised by RET when SP is 17 to 31: R17 gives no STACK entry at SP − 1. No reachable state holds such an SP (R18, U12).
  Safe: the model stops where the spec gives no effect. -/
  | stackIndexOutOfRange
  deriving DecidableEq, Repr

/-- Why the model gives an instruction no meaning. -/
inductive Refusal where
  /-- Raised by an arm of exec whose instruction has no meaning yet; no arm is. Safe: the model stops. -/
  | notModelled (mnemonic : String)
  deriving DecidableEq, Repr

/-- The machine after reset, the host operation CREATE: every piece of state is zero and STATUS is IDLE (R25, R160). -/
def State.reset : State where
  v := Vector.replicate 16 0
  mem := []
  ip := Config.resetIp
  stack := Vector.replicate 16 0
  sp := 0
  status := .idle
  faultKind := none
  faultOpcode := 0
  faultIp := 0

end Sys2Proof.Machine
end

