-- ==== Sys2Proof/Machine/Ops.lean ====
section
/-! DEFINITION. The named operations over memory, the scalar registers and the call stack, and fault entry. There is no
return from a fault (R138), so none stands beside it. -/

namespace Sys2Proof.Machine

/-! ### Memory (spec/20_memory.md) -/

/-- The cell MEM[a] (R19). -/
def memByte : Memory → Nat → Byte
  | [], _ => unlistedByte
  | (b, w) :: rest, a => if a = b then w else memByte rest a

/-- The list with cell `a` in front, unless it holds what an unlisted cell holds. -/
def consCell (a : Nat) (v : Byte) (rest : Memory) : Memory :=
  if v = unlistedByte then rest else (a, v) :: rest

/-- `MEM[a] <- v`, in canonical form. -/
def memSet : Memory → Nat → Byte → Memory
  | [], a, v => consCell a v []
  | (b, w) :: rest, a, v =>
    if a < b then consCell a v ((b, w) :: rest)
    else if a = b then consCell a v rest
    else (b, w) :: memSet rest a v

/-- MemRead(addr, 2) (R7): the byte at the lower address in the high-order bits; `none` where the access is out of bounds
(R38). There is no alignment condition (R33). -/
def memRead16 (m : Memory) (addr : Nat) : Option Word :=
  if addr + 1 < Config.memSize then some (wordOfBytes (memByte m addr) (memByte m (addr + 1))) else none

/-- MemWrite(addr, 2, v) (R8); `none` where the primitive is not defined (R8, R38). -/
def memWrite16 (m : Memory) (addr : Nat) (v : Word) : Option Memory :=
  if addr + 1 < Config.memSize then some (memSet (memSet m addr (highByte v)) (addr + 1) (lowByte v)) else none

/-! ### Scalar registers -/

/-- `IP <- a` (R13). -/
def setIp (s : State) (a : Word) : State := { s with ip := a }

/-- `STATUS <- st` (R20). -/
def setStatus (s : State) (st : Status) : State := { s with status := st }

/-- Memory replaced by `m`: the effect of a host LOAD (R112). -/
def setMem (s : State) (m : Memory) : State := { s with mem := m }

/-- The 2-bit code of STATUS (R20). -/
def statusCode : Status → BitVec 2
  | .idle => 0
  | .running => 1
  | .halted => 2
  | .faulted => 3

/-- The 3-bit code of FAULT_KIND (R21, R130). -/
def faultKindCode : Option FaultKind → BitVec 3
  | none => 0
  | some .stackOverflow => 1
  | some .stackUnderflow => 2
  | some .unimplementedOpcode => 3
  | some .fetchOutOfBounds => 4

/-! ### The call stack (R17, R18) -/

/-- `STACK[SP] <- ret; SP <- SP + 1` (R100). CALL checks SP < 16 first. -/
def pushReturn (s : State) (ret : Word) : State :=
  { s with stack := s.stack.setIfInBounds s.sp.toNat ret, sp := s.sp + 1 }

/-- STACK[SP − 1], the top of the stack (R18), where R17 gives an entry at that index. RET checks SP ≠ 0 first. -/
def topReturn (s : State) : Option Word := s.stack[s.sp.toNat - 1]?

/-- `SP <- SP − 1` (R101); the popped entry keeps its value (R17). -/
def popReturn (s : State) : State := { s with sp := s.sp - 1 }

/-! ### The parts of the cycle that every instruction shares (R70) -/

/-- Step 1, fetch: MemRead(IP, 2), `none` where IP is above 4094 (R71). -/
def fetch (s : State) : Option Word := memRead16 s.mem s.ip.toNat

/-- Step 2, advance: `IP <- IP + 2`, before dispatch (R72). -/
def advance (s : State) : State := setIp s (s.ip + Config.instrBytes)

/-! ### Taking a fault (R9, R137) -/

/-- What FAULT_OPCODE records: the opcode fetched, and 0 where none was (R22, R137). -/
def recordedOpcode (k : FaultKind) (op : Word) : Word :=
  match k with
  | .stackOverflow => op
  | .stackUnderflow => op
  | .unimplementedOpcode => op
  | .fetchOutOfBounds => 0

/-- fault_entry(K, a, op) of R137, with `a` the IP at the start of the cycle and `op` the opcode fetched. -/
def faultEntry (k : FaultKind) (a op : Word) (s : State) : State :=
  { s with faultKind := some k, faultOpcode := recordedOpcode k op, faultIp := a, status := .faulted }

/-- A fault raised in step 4 of the cycle (R130 kinds 1 to 3). IP has been advanced by then, so the cycle started at
IP − 2 (R23). -/
def raiseAtDispatch (k : FaultKind) (op : Word) (s : State) : Host.Outcome State Fault Refusal :=
  .next (faultEntry k (s.ip - Config.instrBytes) op s)

/-- The fault raised in step 1 of the cycle, before the advance (R71, R130 kind 4). -/
def raiseAtFetch (s : State) : Host.Outcome State Fault Refusal :=
  .next (faultEntry .fetchOutOfBounds s.ip 0 s)

end Sys2Proof.Machine
end

