-- ==== Sys2Proof/Machine/Operands.lean ====
section
/-! DEFINITION. The operand forms (R52, R55): register operands and the address operand. There is no other (R36, R55). -/

namespace Sys2Proof.Machine

/-- The register operand V[i], read (R10). No register is hard-wired. -/
def readReg (s : State) (i : RegIndex) : Byte := s.v[i]

/-- `V[i] <- b` (R10). -/
def writeReg (s : State) (i : RegIndex) (b : Byte) : State := { s with v := s.v.set i b }

/-- The address operand: nnn zero-extended to the 16 bits of IP (R55). -/
def addressOperand (nnn : MemAddr) : Word := nnn.setWidth 16

end Sys2Proof.Machine
end

