-- ==== Sys2Proof/Machine/Arith.lean ====
section
/-! DEFINITION. The arithmetic instruction ADD (spec/41_alu.md). -/

namespace Sys2Proof.Machine

/-- ADD Vx, Vy (R90): both sources are read first; V[x] is written, then the flag register, so the flag lands last
when x is the flag register (R90 corner case 4). -/
def execAdd (x y : RegIndex) (s : State) : Host.Outcome State Fault Refusal :=
  let a := readReg s x
  let b := readReg s y
  .next (writeReg (writeReg s x (aluSum a b)) Config.flagReg (aluCarry a b))

end Sys2Proof.Machine
end

