-- ==== Sys2Proof/Machine/Control.lean ====
section
/-! DEFINITION. The control transfers CALL and RET (spec/42_call_stack.md). -/

namespace Sys2Proof.Machine

/-- CALL nnn (R100): the check comes before any write; the return address is the advanced IP. -/
def execCall (nnn : MemAddr) (s : State) : Host.Outcome State Fault Refusal :=
  if Config.stackDepth ≤ s.sp.toNat then raiseAtDispatch .stackOverflow (encode (.call nnn)) s
  else .next (setIp (pushReturn s s.ip) (addressOperand nnn))

/-- RET (R101): the check comes before any write; the entry at the new SP goes to IP. -/
def execRet (s : State) : Host.Outcome State Fault Refusal :=
  if s.sp = 0 then raiseAtDispatch .stackUnderflow (encode .ret) s
  else
    match topReturn s with
    | some ret => .next (setIp (popReturn s) ret)
    | none => .fault .stackIndexOutOfRange

end Sys2Proof.Machine
end

