-- ==== Sys2Proof/Machine/System.lean ====
section
/-! DEFINITION. The system instruction HALT (spec/40_cycle_and_halt.md). As in every family, IP already holds the address of
the next instruction when a meaning starts (R70, R72). -/

namespace Sys2Proof.Machine

/-- HALT (R75). -/
def execHalt (s : State) : Host.Outcome State Fault Refusal := .next (setStatus s .halted)

end Sys2Proof.Machine
end

