-- ==== Sys2Proof/Machine/Dispatch.lean ====
section
/-! DEFINITION. Step 4's arms (R74 of spec/40_cycle_and_halt.md): one meaning per instruction, run on the state whose IP has
been advanced (R72). -/

namespace Sys2Proof.Machine

def exec (i : Instr) (s : State) : Host.Outcome State Fault Refusal :=
  match i with
  | .halt => Sys2Proof.Machine.execHalt s
  | .add x y => Sys2Proof.Machine.execAdd x y s
  | .ret => Sys2Proof.Machine.execRet s
  | .call nnn => Sys2Proof.Machine.execCall nnn s

end Sys2Proof.Machine
end

