-- ==== Sys2Proof/Machine/Cycle.lean ====
section
/-! DEFINITION. The instruction cycle (R70 of spec/40_cycle_and_halt.md), the core's step, and a word placed for the next
fetch. -/

namespace Sys2Proof.Machine

/-- Steps 2 to 4 of the cycle once `op` has been fetched: advance, decode, dispatch (R72 to R76). -/
def runOpcode (op : Word) (s : State) : Host.Outcome State Fault Refusal :=
  match decodeWord op with
  | .ok i => exec i (advance s)
  | .error _ => raiseAtDispatch .unimplementedOpcode op (advance s)

/-- One instruction cycle (R70). -/
def cycle (s : State) : Host.Outcome State Fault Refusal :=
  match fetch s with
  | some op => runOpcode op s
  | none => raiseAtFetch s

/-- What the core does in one step: a cycle while STATUS = RUNNING (R70, R77), and nothing in IDLE, HALTED and FAULTED
(R160, R138, R146). DEDUCED, log entry 1: doing nothing is a step to the same state. -/
def coreStep (s : State) : Host.Outcome State Fault Refusal :=
  if s.status = .running then cycle s else .next s

/-- The state with `w` stored where the next cycle fetches and the core running (DESIGN CHOICE, log entry 2): what LOAD and
RUN do together from reset. IP is kept wherever a fetch from it is possible, and is 0 otherwise. -/
def placeWord (s : State) (w : Word) : State :=
  let a : Word := if s.ip.toNat + 1 < Config.memSize then s.ip else 0
  match memWrite16 s.mem a.toNat w with
  | some m => setStatus (setIp (setMem s m) a) .running
  | none => s

end Sys2Proof.Machine
end

