-- ==== Sys2Proof/Machine/Step.lean ====
section
/-! DEFINITION. The step of the machine. -/

namespace Sys2Proof.Machine

/-- One step of the core (R70, R77). -/
def step (s : State) : Host.Outcome State Fault Refusal := coreStep s

/-- `s` with the word `w` of the opcode table stored where `step` fetches its next instruction, and running. -/
def State.withFetchWord (s : State) (nbits w : Nat) : State := placeWord s (tableWord nbits w)

end Sys2Proof.Machine
end

