-- ==== Sys2Proof/Machine/HostPort.lean ====
section
/-! DEFINITION. The host interface (spec/43_host_interface.md): its five operations, when each is accepted, its outputs, and
the illustrative ports of R119. A host operation is one atomic step of its own, between cycles (D1, R35). -/

namespace Sys2Proof.Machine

/-- The host's five operations (R110). -/
inductive HostOp where
  | create
  | load (address : MemAddr) (opcode : Word)
  | regWrite (i : RegIndex) (b : Byte)
  | regRead (i : RegIndex)
  | run
  deriving DecidableEq, Repr

/-- What an operation reports to the host. -/
inductive HostReply where
  /-- Accepted, no value (R112). -/
  | accepted
  /-- Accepted, REG_READ's value (R115). -/
  | value (b : Byte)
  /-- Rejected, the error `cmd_err` (R111, R113). It is no fault of the core (R140). -/
  | rejected
  deriving DecidableEq, Repr

/-- When an operation is accepted: R111's table, and R113's bound for LOAD. -/
def hostAccepts (op : HostOp) (s : State) : Bool :=
  match op with
  | .create => true
  | .load address _ => s.status == .idle && address.toNat + 1 < Config.memSize
  | .regWrite _ _ => s.status == .idle
  | .regRead _ => s.status != .running
  | .run => s.status == .idle

/-- LOAD's write (R112). A write out of bounds does not happen (R113). -/
def hostLoad (s : State) (address : MemAddr) (opcode : Word) : State :=
  match memWrite16 s.mem address.toNat opcode with
  | some m => setMem s m
  | none => s

/-- The effect of an accepted operation (R112, R114, R115, R116, R160). -/
def hostEffect (op : HostOp) (s : State) : State :=
  match op with
  | .create => State.reset
  | .load address opcode => hostLoad s address opcode
  | .regWrite i b => writeReg s i b
  | .regRead _ => s
  | .run => setStatus s .running

/-- The reply of an accepted operation (R112, R115). -/
def hostValue (op : HostOp) (s : State) : HostReply :=
  match op with
  | .create => .accepted
  | .load _ _ => .accepted
  | .regWrite _ _ => .accepted
  | .regRead i => .value (readReg s i)
  | .run => .accepted

/-- One host operation: a rejected one changes no state and reports an error (R111). -/
def hostStep (op : HostOp) (s : State) : HostReply × State :=
  if hostAccepts op s then (hostValue op s, hostEffect op s) else (.rejected, s)

/-- Host operations one after another (R40). -/
def hostSession : List HostOp → State → State
  | [], s => s
  | op :: rest, s => hostSession rest (hostStep op s).2

/-- The LOADs of a program: assembler lines, each with the byte address it is loaded at (R59, R162). -/
def programLoads : List (MemAddr × AsmLine) → Option (List HostOp)
  | [] => some []
  | (address, l) :: rest =>
    match assemble l, programLoads rest with
    | some w, some ops => some (.load address w :: ops)
    | _, _ => none

/-- The outputs the host can read at any time (R118). -/
structure Outputs where
  status : BitVec 2
  faultKind : BitVec 3
  faultOpcode : Word
  faultIp : Word
  deriving DecidableEq, Repr

/-- The outputs in a state (R118, R20 to R23). -/
def outputs (s : State) : Outputs :=
  ⟨statusCode s.status, faultKindCode s.faultKind, s.faultOpcode, s.faultIp⟩

/-! ### The port list of R119, one possible binding and not normative (log entry 8) -/

/-- The input ports (R119). -/
structure PortIn where
  rst : Bool
  cmdValid : Bool
  cmd : BitVec 2
  addr : MemAddr
  wdata : Word
  regIdx : BitVec 4
  regWdata : Byte
  deriving DecidableEq, Repr

/-- The output ports (R119). `regRdata` is `none` where no REG_READ was accepted: R119 gives no value then. -/
structure PortOut where
  regRdata : Option Byte
  cmdErr : Bool
  outs : Outputs
  deriving DecidableEq, Repr

/-- The operation that `cmd` names (R119). -/
def commandOf (p : PortIn) : HostOp :=
  match p.cmd with
  | 0#2 => .load p.addr p.wdata
  | 1#2 => .regWrite (regOfField p.regIdx) p.regWdata
  | 2#2 => .regRead (regOfField p.regIdx)
  | 3#2 => .run

/-- The operation presented at the ports, if any. `rst` wins over a command (DESIGN CHOICE, log entry 8). -/
def presentedOp (p : PortIn) : Option HostOp :=
  if p.rst then some .create else if p.cmdValid then some (commandOf p) else none

/-- The output ports after an operation with this reply has left this state. -/
def portsOf (r : HostReply) (s : State) : PortOut :=
  match r with
  | .accepted => ⟨none, false, outputs s⟩
  | .value b => ⟨some b, false, outputs s⟩
  | .rejected => ⟨none, true, outputs s⟩

/-- What the ports do: the presented operation, or nothing (R119). -/
def portStep (p : PortIn) (s : State) : PortOut × State :=
  match presentedOp p with
  | some op => (portsOf (hostStep op s).1 (hostStep op s).2, (hostStep op s).2)
  | none => (portsOf .accepted s, s)

end Sys2Proof.Machine
end

