-- ==== Sys2Proof/Safety.lean ====
section
/-! DEFINITION. Runs, reachable states, what holds in them, and the bound on a run: the terms the statements use. -/

namespace Sys2Proof

open Sys2Proof.Machine

/-- `n` steps of the core, stopping at the first fault or refusal (R77). -/
def stepN : Nat → State → Host.Outcome State Fault Refusal
  | 0, s => .next s
  | n + 1, s =>
    match step s with
    | .next t => stepN n t
    | .fault r => .fault r
    | .refused r => .refused r

/-- How many of the 65536 opcodes have a property. -/
def countWords (p : Word → Bool) : Nat := (Finset.univ.filter fun op : Word => p op = true).card

/-- The opcode is one of the four instructions (R53). -/
def isInstruction (op : Word) : Bool := (decodeWord op).toOption.isSome

/-- The opcode matches no row of the opcode map (R53, R56). -/
def MatchesNoRow (op : Word) : Prop :=
  op &&& 0xFFFF ≠ 0x0000 ∧ op &&& 0xF00F ≠ 0x8004 ∧ op &&& 0xFFFF ≠ 0x00EE ∧ op &&& 0xF000 ≠ 0x2000

/-- The run has ended (R120). -/
def Ended (s : State) : Prop := s.status = .halted ∨ s.status = .faulted

/-- The states that steps of the core and operations of the host reach from reset, in any order (R40). -/
inductive Reachable : State → Prop where
  | reset : Reachable State.reset
  | core {s t : State} : Reachable s → step s = .next t → Reachable t
  | host {s : State} (op : HostOp) : Reachable s → Reachable (hostStep op s).2

/-- STACK[k], and 0 at an index where there is no entry. -/
def entryAt (s : State) (k : Nat) : Word := s.stack[k]?.getD 0

/-- A return address: the word two bytes before it is a CALL (R100, R102). -/
def FollowsCall (m : Memory) (ret : Word) : Prop :=
  2 ≤ ret.toNat ∧ ∃ op, memRead16 m (ret.toNat - 2) = some op ∧ fieldC op = 0x2

/-- The fault was raised at dispatch: IP is FAULT_IP plus 2 and the word at FAULT_IP is FAULT_OPCODE (R23, R130). -/
def FaultedAtDispatch (s : State) : Prop :=
  s.ip = s.faultIp + 2 ∧ memRead16 s.mem s.faultIp.toNat = some s.faultOpcode

/-- The fault record agrees with the rest of the faulted state (R130, R135, R137). -/
def FaultRecordFits (s : State) : Prop :=
  match s.faultKind with
  | none => False
  | some .stackOverflow => fieldC s.faultOpcode = 0x2 ∧ s.sp = 16 ∧ FaultedAtDispatch s
  | some .stackUnderflow => s.faultOpcode = 0x00EE ∧ s.sp = 0 ∧ FaultedAtDispatch s
  | some .unimplementedOpcode =>
    decodeWord s.faultOpcode = .error (.unimplementedOpcode s.faultOpcode) ∧ FaultedAtDispatch s
  | some .fetchOutOfBounds => s.faultOpcode = 0 ∧ s.faultIp = s.ip ∧ 4094 < s.ip.toNat

/-- What holds in every reachable state. -/
structure MachineInv (s : State) : Prop where
  /-- Memory is in canonical form. -/
  memWf : Memory.wf s.mem
  /-- R14. -/
  ipBound : s.ip.toNat ≤ 4096
  /-- R14. -/
  stackBound : ∀ k, (entryAt s k).toNat ≤ 4096
  /-- R18. -/
  spBound : s.sp.toNat ≤ 16
  /-- R116: what reset left is still there when RUN comes. -/
  idleClean : s.status = .idle → s.ip = 0 ∧ s.sp = 0 ∧ s.stack = Vector.replicate 16 0
  /-- R21, R118: the fault registers read 0 unless the core is FAULTED. -/
  noRecord : s.status ≠ .faulted → s.faultKind = none ∧ s.faultOpcode = 0 ∧ s.faultIp = 0
  /-- R21, R130. -/
  record : s.status = .faulted → FaultRecordFits s
  /-- R102: every live entry of the stack is the return address of a CALL. -/
  liveReturns : ∀ k, k < s.sp.toNat → FollowsCall s.mem (entryAt s k)
  /-- R75: a HALTED core stands just after a HALT. -/
  haltWord : s.status = .halted → 2 ≤ s.ip.toNat ∧ memRead16 s.mem (s.ip.toNat - 2) = some 0x0000

/-- How many instructions fit from this address to the end of memory: the cycles an activation that stands here has left
at its own level (R167). -/
def slotsFrom (a : Word) : Nat := (4096 - a.toNat) / 2

/-- A bound on the cycles of an activation that has `d` levels of the call stack to itself: at most 2048 cycles at its own
level, each of which may start an activation one level up (R167). -/
def activationBound : Nat → Nat
  | 0 => 0
  | d + 1 => 2048 * (1 + activationBound d)

/-- A bound on the cycles a run has left that do not end it: what each live activation has left at its own level, each
such cycle with what a CALL there could cost (R167). -/
def cyclesLeft (s : State) : Nat :=
  slotsFrom s.ip * (1 + activationBound (16 - s.sp.toNat)) +
    ∑ k ∈ Finset.range s.sp.toNat, slotsFrom (entryAt s k) * (1 + activationBound (16 - k))

end Sys2Proof
end

