-- ==== Sys2Proof/Certificates/Slice0/Obligations.lean ====
section
/-! DEFINITION. The statements for the provers. Each docstring names the rules of the spec it formalises, or says that it
is the model's own choice and names the log entry. -/

open Sys2Proof Sys2Proof.Machine

/-! ### Encoding (spec/30_encoding.md) -/

/-- Words written out from R53's patterns decode to the instructions they stand for, and their neighbours are rejected. -/
def Obligations.SpecWordsDecode : Prop :=
  decodeBytes [0x00, 0x00] = .ok (.halt, []) ∧ decodeBytes [0x80, 0x14] = .ok (.add 0 1, []) ∧
  decodeBytes [0x8A, 0xB4, 0x77] = .ok (.add 10 11, [0x77]) ∧ decodeBytes [0x00, 0xEE] = .ok (.ret, []) ∧
  decodeBytes [0x2F, 0xFF] = .ok (.call 0xFFF, []) ∧ decodeBytes [0x20, 0xEE] = .ok (.call 0x0EE, []) ∧
  decodeBytes [0x00, 0xE0] = .error (.unimplementedOpcode 0x00E0) ∧
  decodeBytes [0x80, 0x15] = .error (.unimplementedOpcode 0x8015) ∧
  decodeBytes [0xEE, 0x00] = .error (.unimplementedOpcode 0xEE00)

/-- R50, R52, R53: the decoder reads back every instruction from its word, and from its bytes at the head of any stream. -/
def Obligations.DecodeOfEncodeIsInstruction : Prop :=
  ∀ i : Instr, decodeWord (encode i) = .ok i ∧ ∀ rest, decodeBytes (encodeBytes i ++ rest) = .ok (i, rest)

/-- R50, R53: a word, and a stream of bytes, that decodes is the encoding of what it decodes to. -/
def Obligations.EncodeOfDecodeIsWord : Prop :=
  (∀ op i, decodeWord op = .ok i → encode i = op) ∧
  ∀ bytes i rest, decodeBytes bytes = .ok (i, rest) → bytes = encodeBytes i ++ rest

/-- R51: the five fields as masks and shifts of the opcode and as parts of its two bytes. -/
def Obligations.FieldsAreMasksAndShifts : Prop :=
  (∀ op : Word,
    fieldC op = ((op &&& 0xF000) >>> 12).setWidth 4 ∧ fieldX op = ((op &&& 0x0F00) >>> 8).setWidth 4 ∧
    fieldY op = ((op &&& 0x00F0) >>> 4).setWidth 4 ∧ fieldD op = (op &&& 0x000F).setWidth 4 ∧
    fieldNNN op = (op &&& 0x0FFF).setWidth 12 ∧ fieldNNN op = (fieldX op ++ fieldY op ++ fieldD op : BitVec 12)) ∧
  ∀ hi lo : Byte,
    fieldC (wordOfBytes hi lo) = hi.extractLsb' 4 4 ∧ fieldX (wordOfBytes hi lo) = hi.extractLsb' 0 4 ∧
    fieldY (wordOfBytes hi lo) = lo.extractLsb' 4 4 ∧ fieldD (wordOfBytes hi lo) = lo.extractLsb' 0 4 ∧
    fieldNNN (wordOfBytes hi lo) = (hi.extractLsb' 0 4 ++ lo : BitVec 12)

/-- R53: the decoder recognises exactly the four patterns, with the table's masks, operands and numbers of encodings. -/
def Obligations.OpcodeMapDecides : Prop :=
  (∀ op : Word,
    (decodeWord op = .ok .halt ↔ op &&& 0xFFFF = 0x0000) ∧
    (∀ x y, decodeWord op = .ok (.add x y) ↔
      op &&& 0xF00F = 0x8004 ∧ x.val = (fieldX op).toNat ∧ y.val = (fieldY op).toNat) ∧
    (decodeWord op = .ok .ret ↔ op &&& 0xFFFF = 0x00EE) ∧
    (∀ nnn, decodeWord op = .ok (.call nnn) ↔ op &&& 0xF000 = 0x2000 ∧ nnn = fieldNNN op) ∧
    (decodeWord op = .error (.unimplementedOpcode op) ↔ MatchesNoRow op)) ∧
  countWords (haltRow.matchesWord ·) = 1 ∧ countWords (addRow.matchesWord ·) = 256 ∧
  countWords (retRow.matchesWord ·) = 1 ∧ countWords (callRow.matchesWord ·) = 4096 ∧
  countWords (fun op => !isInstruction op) = 61182

/-- R54: the four patterns are pairwise disjoint, so that the order in which they are tried does not matter; 4354 opcodes
are instructions and 61182 are not. -/
def Obligations.PatternsAreDisjoint : Prop :=
  opcodeTable.Pairwise (fun r q => ∀ op, ¬(r.matchesWord op = true ∧ q.matchesWord op = true)) ∧
  (∀ rows : List OpcodeRow, rows.Perm opcodeTable →
    ∀ op, rows.find? (·.matchesWord op) = opcodeTable.find? (·.matchesWord op)) ∧
  countWords isInstruction = 4354 ∧ countWords (fun op => !isInstruction op) = 61182

/-- R56's table: the unimplemented opcodes, class by class. -/
def Obligations.UnimplementedSpaceByClass : Prop :=
  ∀ op : Word, decodeWord op = .error (.unimplementedOpcode op) ↔
    (fieldC op = 0x0 ∧ op ≠ 0x0000 ∧ op ≠ 0x00EE) ∨ fieldC op = 0x1 ∨ (0x3 ≤ fieldC op ∧ fieldC op ≤ 0x7) ∨
    (fieldC op = 0x8 ∧ fieldD op ≠ 0x4) ∨ 0x9 ≤ fieldC op

/-- R59 (the spec's decision D15): the assembler's arithmetic gives the encoding of every instruction and places `.word`
as it is; it refuses exactly a register operand that is no digit 0 to F, an address operand above 0xFFF and a `.word` value
of more than 16 bits. -/
def Obligations.AssemblerWordsAreEncodings : Prop :=
  (∀ i : Instr, assemble i.toAsm = some (encode i)) ∧
  (∀ v : Word, assemble (.word v.toNat) = some v) ∧
  (∀ x y : Nat, assemble (.add x y) = none ↔ 16 ≤ x ∨ 16 ≤ y) ∧
  (∀ nnn : Nat, assemble (.call nnn) = none ↔ 4096 ≤ nnn) ∧
  ∀ v : Nat, assemble (.word v) = none ↔ 65536 ≤ v

/-! ### The instructions (R75, R90, R100, R101) -/

/-- R75: HALT's encoding, its effect, and its cycle. -/
def Obligations.HaltEndsTheRun : Prop :=
  encode .halt = 0x0000 ∧
  ∀ s : State, exec .halt s = .next { s with status := .halted } ∧
    (s.status = .running → fetch s = some 0x0000 →
      step s = .next { s with ip := s.ip + 2, status := .halted })

/-- R90: ADD's encoding, its effect for all 256 register pairs (the sum, then the carry over it), and its cycle. That the
carry lands last when x = 0xF is the spec's decision D6 (C3 of spec/90_conflicts.md). -/
def Obligations.AddWritesSumThenCarry : Prop :=
  ∀ (x y : RegIndex) (s : State),
    encode (.add x y) = BitVec.ofNat 16 (0x8004 + x.val * 2 ^ 8 + y.val * 2 ^ 4) ∧
    exec (.add x y) s = .next { s with
      v := (s.v.set x (BitVec.ofNat 8 ((s.v[x].toNat + s.v[y].toNat) % 256))).set 15
        (if 256 ≤ s.v[x].toNat + s.v[y].toNat then 1 else 0) } ∧
    (s.status = .running → fetch s = some (encode (.add x y)) →
      step s = .next { s with
        ip := s.ip + 2
        v := (s.v.set x (BitVec.ofNat 8 ((s.v[x].toNat + s.v[y].toNat) % 256))).set 15
          (if 256 ≤ s.v[x].toNat + s.v[y].toNat then 1 else 0) })

/-- R100: CALL's encoding, its effect where the stack has room and where it has none, and its cycle. IP holds the return
address when the meaning starts. What FAULT_OPCODE and FAULT_IP hold after the fault is FaultTable's. -/
def Obligations.CallPushesReturnAddress : Prop :=
  ∀ (nnn : MemAddr) (s : State),
    encode (.call nnn) = BitVec.ofNat 16 (0x2000 + nnn.toNat) ∧
    (∀ h : s.sp.toNat < 16, exec (.call nnn) s = .next { s with
      stack := s.stack.set s.sp.toNat s.ip, sp := s.sp + 1, ip := BitVec.ofNat 16 nnn.toNat }) ∧
    (16 ≤ s.sp.toNat → ∃ op a, exec (.call nnn) s = .next { s with
      status := .faulted, faultKind := some .stackOverflow, faultOpcode := op, faultIp := a }) ∧
    (s.status = .running → fetch s = some (encode (.call nnn)) →
      (∀ h : s.sp.toNat < 16, step s = .next { s with
        stack := s.stack.set s.sp.toNat (s.ip + 2), sp := s.sp + 1, ip := BitVec.ofNat 16 nnn.toNat }) ∧
      (16 ≤ s.sp.toNat → ∃ op a, step s = .next { s with
        ip := s.ip + 2, status := .faulted, faultKind := some .stackOverflow, faultOpcode := op, faultIp := a }))

/-- R101: RET's encoding, its effect on an empty and on a non-empty stack, and its cycle. SP is at most 16 (R18;
RetStopsBeyondStack has the rest). What FAULT_OPCODE and FAULT_IP hold after the fault is FaultTable's. -/
def Obligations.RetPopsReturnAddress : Prop :=
  encode .ret = 0x00EE ∧
  ∀ s : State,
    (s.sp = 0 → ∃ op a, exec .ret s = .next { s with
      status := .faulted, faultKind := some .stackUnderflow, faultOpcode := op, faultIp := a }) ∧
    (∀ h : 0 < s.sp.toNat ∧ s.sp.toNat ≤ 16, exec .ret s = .next { s with
      sp := s.sp - 1, ip := s.stack[s.sp.toNat - 1] }) ∧
    (s.status = .running → fetch s = some 0x00EE →
      (s.sp = 0 → ∃ op a, step s = .next { s with
        ip := s.ip + 2, status := .faulted, faultKind := some .stackUnderflow, faultOpcode := op, faultIp := a }) ∧
      (∀ h : 0 < s.sp.toNat ∧ s.sp.toNat ≤ 16, step s = .next { s with
        sp := s.sp - 1, ip := s.stack[s.sp.toNat - 1] }))

/-- The model's choice (log entry 5): where R17 gives no entry to pop, RET stops by name. No reachable state has such an SP
(R18). -/
def Obligations.RetStopsBeyondStack : Prop :=
  ∀ s : State, 16 < s.sp.toNat → exec .ret s = .fault .stackIndexOutOfRange

/-- R90, R12, R16: the meaning of ADD changes no register but V[x] and the flag register, no byte of memory, and nothing of
IP (which step 2 of the cycle has advanced by then), the stack, STATUS and the fault registers. -/
def Obligations.AddFrame : Prop :=
  ∀ (x y : RegIndex) (s t : State), exec (.add x y) s = .next t →
    (∀ i : RegIndex, i ≠ x → i ≠ 15 → t.v[i] = s.v[i]) ∧ (∀ a, memByte t.mem a = memByte s.mem a) ∧
    t.ip = s.ip ∧ t.stack = s.stack ∧ t.sp = s.sp ∧ t.status = s.status ∧
    t.faultKind = s.faultKind ∧ t.faultOpcode = s.faultOpcode ∧ t.faultIp = s.faultIp

/-- R12, R75, R100, R101, R135: HALT, CALL and RET change no register (so not the flag) and no byte of memory. HALT and RET
change no stack entry, CALL at most the one at SP. The fault registers change only where the instruction faults, and then
the stack and SP do not. -/
def Obligations.HaltCallRetFrame : Prop :=
  ∀ (i : Instr) (s t : State), exec i s = .next t → (∀ x y, i ≠ .add x y) →
    (∀ j : RegIndex, t.v[j] = s.v[j]) ∧ (∀ a, memByte t.mem a = memByte s.mem a) ∧
    (i = .halt → t.stack = s.stack ∧ t.sp = s.sp ∧
      t.faultKind = s.faultKind ∧ t.faultOpcode = s.faultOpcode ∧ t.faultIp = s.faultIp) ∧
    (i = .ret → t.stack = s.stack ∧
      (s.sp = 0 → t.sp = s.sp) ∧
      (s.sp ≠ 0 → t.status = s.status ∧
        t.faultKind = s.faultKind ∧ t.faultOpcode = s.faultOpcode ∧ t.faultIp = s.faultIp)) ∧
    (∀ nnn, i = .call nnn →
      (∀ k, k ≠ s.sp.toNat → entryAt t k = entryAt s k) ∧
      (16 ≤ s.sp.toNat → t.stack = s.stack ∧ t.sp = s.sp) ∧
      (s.sp.toNat < 16 → t.status = s.status ∧
        t.faultKind = s.faultKind ∧ t.faultOpcode = s.faultOpcode ∧ t.faultIp = s.faultIp))

/-- R90, corner cases 3 to 5: with the flag register as destination the carry lands last and the sum is lost; as second
source its old value is an operand. That the carry lands last is the spec's decision D6 (C3 of spec/90_conflicts.md). -/
def Obligations.FlagAsDestinationAndSource : Prop :=
  ∀ s : State,
    (∀ y : RegIndex, ∃ t, exec (.add 15 y) s = .next t ∧
      t.v[15] = (if 256 ≤ s.v[15].toNat + s.v[y].toNat then 1 else 0)) ∧
    (∃ t, exec (.add 15 15) s = .next t ∧ t.v[15] = (if 128 ≤ s.v[15].toNat then 1 else 0)) ∧
    ∀ x : RegIndex, x ≠ 15 → ∃ t, exec (.add x 15) s = .next t ∧
      t.v[x].toNat = (s.v[x].toNat + s.v[15].toNat) % 256 ∧
      t.v[15] = (if 256 ≤ s.v[x].toNat + s.v[15].toNat then 1 else 0)

/-- R91: the ALU's addition is exact with its carry, commutes, and has no carry-in. -/
def Obligations.AluAddition : Prop :=
  (∀ a b : Byte,
    (aluSum a b).toNat = (a.toNat + b.toNat) % 256 ∧
    aluCarry a b = (if 256 ≤ a.toNat + b.toNat then 1 else 0) ∧
    (aluSum a b).toNat + 256 * (aluCarry a b).toNat = a.toNat + b.toNat ∧
    aluSum a b = aluSum b a ∧ aluCarry a b = aluCarry b a) ∧
  ∀ (x y : RegIndex) (s : State) (flag : Byte), x ≠ 15 → y ≠ 15 →
    ∃ t u, exec (.add x y) s = .next t ∧ exec (.add x y) { s with v := s.v.set 15 flag } = .next u ∧
      t.v[x] = u.v[x] ∧ t.v[15] = u.v[15]

/-- R12, R16: in any step of the core the registers change only by an ADD, and then only its destination and the flag. -/
def Obligations.RegistersChangeOnlyByAdd : Prop :=
  ∀ s t : State, step s = .next t → t.v ≠ s.v →
    ∃ x y, s.status = .running ∧ fetch s = some (encode (.add x y)) ∧
      ∀ i : RegIndex, i ≠ x → i ≠ 15 → t.v[i] = s.v[i]

/-! ### The cycle (spec/40_cycle_and_halt.md) -/

/-- R70, R72, R74: when the two bytes at IP decode to an instruction, the step is that instruction on the state whose IP
has been moved past them. -/
def Obligations.StepRunsDecodedInstruction : Prop :=
  ∀ (s : State) (i : Instr), s.status = .running → s.ip.toNat ≤ 4094 →
    decodeBytes [memByte s.mem s.ip.toNat, memByte s.mem (s.ip.toNat + 1)] = .ok (i, []) →
    step s = exec i { s with ip := s.ip + 2 }

/-- The model's reading (log entry 1) of R70, R138 and R160: outside RUNNING the core does nothing. -/
def Obligations.StepIdlesOutsideRun : Prop :=
  ∀ s : State, s.status ≠ .running → step s = .next s

/-- R71: what a fetch reads, whatever the parity of IP (the spec's decision D4), and what a fetch out of bounds does (its
decision D5). -/
def Obligations.FetchReadsOrFaults : Prop :=
  ∀ s : State,
    (s.ip.toNat ≤ 4094 →
      fetch s = some (memByte s.mem s.ip.toNat ++ memByte s.mem (s.ip.toNat + 1) : BitVec 16)) ∧
    (4094 < s.ip.toNat → fetch s = none ∧ (s.status = .running → step s = .next { s with
      status := .faulted, faultKind := some .fetchOutOfBounds, faultOpcode := 0, faultIp := s.ip }))

/-- R76: an opcode that matches no pattern raises UnimplementedOpcode and changes nothing else but IP. -/
def Obligations.UnimplementedOpcodeFaults : Prop :=
  ∀ (s : State) (op : Word), s.status = .running → fetch s = some op → MatchesNoRow op →
    step s = .next { s with
      ip := s.ip + 2
      status := .faulted, faultKind := some .unimplementedOpcode, faultOpcode := op, faultIp := s.ip }

/-- R72: IP is advanced by 2, exactly, before dispatch: it is what CALL saves, and it stays unless the instruction is a
CALL or a RET that does not fault. -/
def Obligations.AdvanceComesBeforeDispatch : Prop :=
  ∀ (s t : State) (op : Word), s.status = .running → fetch s = some op → step s = .next t →
    s.ip.toNat + 2 ≤ 4096 ∧
    (op &&& 0xF000 ≠ 0x2000 → op ≠ 0x00EE → t.ip.toNat = s.ip.toNat + 2) ∧
    (t.status ≠ .running → t.ip.toNat = s.ip.toNat + 2) ∧
    (op &&& 0xF000 = 0x2000 → s.sp.toNat < 16 → (entryAt t s.sp.toNat).toNat = s.ip.toNat + 2)

/-- R78, R18 (R78 is derived by the spec): with SP in its range a cycle completes, in exactly one of three ways, and records a fault in one of them
only. -/
def Obligations.CycleHasOneOfThreeOutcomes : Prop :=
  ∀ s : State, s.status = .running → s.sp.toNat ≤ 16 →
    ∃ t, step s = .next t ∧
      ((t.status = .running ∧ t.faultKind = s.faultKind) ∨ (t.status = .halted ∧ t.faultKind = s.faultKind) ∨
        (t.status = .faulted ∧ t.faultKind.isSome))

/-- R20 (the spec's decision D7): the encoding of STATUS and its transitions, by the core and by the host; there is no
other. -/
def Obligations.StatusTransitions : Prop :=
  (statusCode .idle = 0 ∧ statusCode .running = 1 ∧ statusCode .halted = 2 ∧ statusCode .faulted = 3) ∧
  (∀ s t : State, step s = .next t →
    t.status = s.status ∨ (s.status = .running ∧ t.status = .halted ∧ fetch s = some 0x0000) ∨
      (s.status = .running ∧ t.status = .faulted ∧ t.faultKind.isSome)) ∧
  (∀ (op : HostOp) (s : State),
    (hostStep op s).2.status = s.status ∨ (op = .run ∧ s.status = .idle ∧ (hostStep op s).2.status = .running) ∨
      (op = .create ∧ (hostStep op s).2.status = .idle)) ∧
  ∀ s : State, (hostStep .create s).2.status = .idle ∧
    (s.status = .idle → (hostStep .run s).2.status = .running)

/-- R120, R138 (that the core idles in an ended run is log entry 1): only CREATE changes an ended run. -/
def Obligations.EndedRunIsFinal : Prop :=
  ∀ s : State, Ended s →
    (∀ n, stepN n s = .next s) ∧ (∀ op, op ≠ .create → (hostStep op s).2 = s) ∧
    ∀ op, hostAccepts op s = true → op = .create ∨ ∃ i, op = .regRead i

/-! ### Faults (spec/60_exceptions.md) -/

/-- R130: each kind of fault is raised exactly under its condition, with the record and the IP of the table, and the codes
of the kinds are the table's. The fourth kind is the spec's decision D5, the record and the codes its decision D8. -/
def Obligations.FaultTable : Prop :=
  (faultKindCode none = 0 ∧ faultKindCode (some .stackOverflow) = 1 ∧ faultKindCode (some .stackUnderflow) = 2 ∧
    faultKindCode (some .unimplementedOpcode) = 3 ∧ faultKindCode (some .fetchOutOfBounds) = 4) ∧
  ∀ s t : State, s.status = .running → step s = .next t →
    ((t.status = .faulted ∧ t.faultKind = some .stackOverflow) ↔
      ∃ op, fetch s = some op ∧ op &&& 0xF000 = 0x2000 ∧ 16 ≤ s.sp.toNat) ∧
    ((t.status = .faulted ∧ t.faultKind = some .stackUnderflow) ↔ fetch s = some 0x00EE ∧ s.sp = 0) ∧
    ((t.status = .faulted ∧ t.faultKind = some .unimplementedOpcode) ↔ ∃ op, fetch s = some op ∧ MatchesNoRow op) ∧
    ((t.status = .faulted ∧ t.faultKind = some .fetchOutOfBounds) ↔ 4094 < s.ip.toNat) ∧
    (t.status = .faulted → t.faultIp = s.ip ∧
      (t.faultKind = some .fetchOutOfBounds → t.faultOpcode = 0 ∧ t.ip = s.ip) ∧
      (t.faultKind ≠ some .fetchOutOfBounds → fetch s = some t.faultOpcode ∧ t.ip.toNat = s.ip.toNat + 2))

/-- R135: what a faulting cycle has changed: IP, advanced by 2, for a fault raised at dispatch; nothing for one raised at
the fetch; and besides that the fault record alone. -/
def Obligations.FaultsArePrecise : Prop :=
  ∀ s t : State, s.status = .running → step s = .next t → t.status = .faulted →
    t.v = s.v ∧ t.mem = s.mem ∧ t.stack = s.stack ∧ t.sp = s.sp ∧
    (t.faultKind = some .fetchOutOfBounds → t.ip = s.ip) ∧
    (t.faultKind ≠ some .fetchOutOfBounds → t.ip = s.ip + 2)

/-! ### Memory (spec/20_memory.md) -/

/-- R36, R43: no step of the core changes memory, so a whole run fetches from the memory it started with. -/
def Obligations.MemoryConstantDuringRun : Prop :=
  ∀ (n : Nat) (s t : State), stepN n s = .next t → t.mem = s.mem

/-- R31: a word written is the word read back, at every address in range and whatever its parity. -/
def Obligations.WriteThenReadReturnsWord : Prop :=
  ∀ (m : Memory) (a : Nat) (w : Word), Memory.wf m → a ≤ 4094 →
    ∃ m', memWrite16 m a w = some m' ∧ memRead16 m' a = some w

/-- R32 (derived by the spec from R7, R8): accesses that overlap see each other's bytes, and the later write wins in the shared cell. -/
def Obligations.OverlappingAccessesShareBytes : Prop :=
  ∀ (m m₁ m₂ : Memory) (a : Nat) (u w : Word), Memory.wf m → memWrite16 m a u = some m₁ →
    (memWrite16 m₁ (a + 2) w = some m₂ → memRead16 m₂ (a + 1) = some (lowByte u ++ highByte w : BitVec 16)) ∧
    (memWrite16 m₁ (a + 1) w = some m₂ →
      memByte m₂ a = highByte u ∧ memByte m₂ (a + 1) = highByte w ∧ memByte m₂ (a + 2) = lowByte w)

/-- The model's own form of memory (log entry 7): two memories in canonical form that read alike are the same list. -/
def Obligations.CanonicalMemoryIsUnique : Prop :=
  ∀ m m' : Memory, Memory.wf m → Memory.wf m' → (∀ a, a < 4096 → memByte m a = memByte m' a) → m = m'

/-! ### The host interface (spec/43_host_interface.md, spec/70_reset_and_hazards.md) -/

/-- R111 (the spec's decision D10): when each operation is accepted, and that a rejected one changes no state and reports an error. A LOAD is in
range here (R113 has the other address). -/
def Obligations.HostAcceptTable : Prop :=
  ∀ s : State,
    hostAccepts .create s = true ∧
    (∀ a w, a.toNat ≤ 4094 → (hostAccepts (.load a w) s = true ↔ s.status = .idle)) ∧
    (∀ i b, hostAccepts (.regWrite i b) s = true ↔ s.status = .idle) ∧
    (∀ i, hostAccepts (.regRead i) s = true ↔ s.status = .idle ∨ s.status = .halted ∨ s.status = .faulted) ∧
    (hostAccepts .run s = true ↔ s.status = .idle) ∧
    (∀ op, hostAccepts op s = false → hostStep op s = (.rejected, s)) ∧
    ∀ op, hostAccepts op s = true → (hostStep op s).1 ≠ .rejected

/-- R112: an accepted LOAD writes the word's two cells, most significant byte first, for any word at any address in range,
and changes nothing else. -/
def Obligations.LoadWritesTwoCells : Prop :=
  ∀ (s : State) (a : MemAddr) (w : Word), Memory.wf s.mem → s.status = .idle → a.toNat ≤ 4094 →
    ∃ t, hostStep (.load a w) s = (.accepted, t) ∧ t = { s with mem := t.mem } ∧
      memByte t.mem a.toNat = highByte w ∧ memByte t.mem (a.toNat + 1) = lowByte w ∧
      ∀ b, b ≠ a.toNat → b ≠ a.toNat + 1 → memByte t.mem b = memByte s.mem b

/-- R113 (the spec's decision D11, log entry 9): LOAD at address 4095 is rejected and writes nothing. -/
def Obligations.LoadAtLastByteIsRejected : Prop :=
  ∀ (s : State) (w : Word), hostStep (.load 4095 w) s = (.rejected, s)

/-- R114: REG_WRITE, accepted in IDLE, sets any register to any value, the flag register too, and changes nothing else. -/
def Obligations.RegWriteSetsRegister : Prop :=
  ∀ (s : State) (i : RegIndex) (b : Byte), s.status = .idle →
    hostStep (.regWrite i b) s = (.accepted, { s with v := s.v.set i b })

/-- R115 (that registers stay readable after a fault is the spec's decision D9): REG_READ returns any register in IDLE,
HALTED and FAULTED and changes nothing. -/
def Obligations.RegReadReturnsRegister : Prop :=
  ∀ (s : State) (i : RegIndex), s.status = .idle ∨ s.status = .halted ∨ s.status = .faulted →
    hostStep (.regRead i) s = (.value s.v[i], s)

/-- R116: RUN changes STATUS alone; and after CREATE, any LOADs, REG_WRITEs and REG_READs, and RUN, the core runs from
address 0 with an empty, zero stack and zero fault registers, registers and memory as the host left them. -/
def Obligations.RunStartsAtZero : Prop :=
  (∀ s : State, s.status = .idle → hostStep .run s = (.accepted, { s with status := .running })) ∧
  ∀ (s t : State) (ops : List HostOp), (∀ op ∈ ops, op ≠ .create ∧ op ≠ .run) →
    t = hostSession (.create :: ops ++ [.run]) s →
    t = { hostSession (.create :: ops) s with status := .running } ∧ t.ip = 0 ∧ t.sp = 0 ∧
      (∀ k, entryAt t k = 0) ∧ t.faultKind = none ∧ t.faultOpcode = 0 ∧ t.faultIp = 0

/-- R117, R118 (the spec's decision D12): no operation but CREATE changes IP, SP, the stack or a fault register, and the reply to an operation is
that of any state with the same registers and STATUS: it tells the host nothing else. -/
def Obligations.HostCannotReachTheRest : Prop :=
  (∀ (op : HostOp) (s : State), op ≠ .create →
    (hostStep op s).2.ip = s.ip ∧ (hostStep op s).2.sp = s.sp ∧ (hostStep op s).2.stack = s.stack ∧
    (hostStep op s).2.faultKind = s.faultKind ∧ (hostStep op s).2.faultOpcode = s.faultOpcode ∧
    (hostStep op s).2.faultIp = s.faultIp) ∧
  ∀ (op : HostOp) (s t : State), s.v = t.v → s.status = t.status → (hostStep op s).1 = (hostStep op t).1

/-- R25, R111, R160: CREATE is accepted in every state and leaves every piece of state zero. That it is accepted during a
run is the spec's decision D10, that it zeroes memory too its decision D13. -/
def Obligations.CreateZeroesEverything : Prop :=
  ∀ s : State, ∃ t, hostStep .create s = (.accepted, t) ∧
    (∀ i : RegIndex, t.v[i] = 0) ∧ (∀ a, memByte t.mem a = 0) ∧ t.ip = 0 ∧
    (∀ (k : Nat) (h : k < 16), t.stack[k] = 0) ∧ t.sp = 0 ∧
    outputs t = ⟨0, 0, 0, 0⟩ ∧ t = State.reset

/-- R162: with nothing loaded, the run halts after one cycle with IP = 2. -/
def Obligations.EmptyRunHaltsAtOnce : Prop :=
  ∀ s : State, step (hostSession [.create, .run] s) = .next { State.reset with ip := 2, status := .halted }

/-- R119's illustrative binding, not normative (that `rst` wins and that no command leaves the state alone is the model's
choice, log entry 8): the ports perform the operation they name. -/
def Obligations.PortsCarryOperations : Prop :=
  ∀ (p : PortIn) (s : State),
    (p.rst = true → (portStep p s).2 = State.reset) ∧
    (p.rst = false → p.cmdValid = false → (portStep p s).2 = s ∧ (portStep p s).1.cmdErr = false) ∧
    (p.rst = false → p.cmdValid = true → ∀ op : HostOp,
      (p.cmd = 0 ∧ op = .load p.addr p.wdata) ∨
      (p.cmd = 1 ∧ ∃ i : RegIndex, i.val = p.regIdx.toNat ∧ op = .regWrite i p.regWdata) ∨
      (p.cmd = 2 ∧ ∃ i : RegIndex, i.val = p.regIdx.toNat ∧ op = .regRead i) ∨ (p.cmd = 3 ∧ op = .run) →
      (portStep p s).2 = (hostStep op s).2 ∧ ((portStep p s).1.cmdErr = true ↔ (hostStep op s).1 = .rejected) ∧
      (∀ b, (portStep p s).1.regRdata = some b ↔ (hostStep op s).1 = .value b)) ∧
    (portStep p s).1.outs = outputs (portStep p s).2

/-- The model's interface (log entry 2) against R162: from reset, a word placed for the next fetch is that word loaded at
address 0 and RUN. -/
def Obligations.PlacedWordIsLoadThenRun : Prop :=
  ∀ w : Word, State.reset.withFetchWord 16 w.toNat = hostSession [.load 0 w, .run] State.reset ∧
    fetch (State.reset.withFetchWord 16 w.toNat) = some w

/-! ### Runs -/

/-- R102 (derived by the spec from R100, R101): while SP stays above its value before a CALL, the entry that the CALL pushed keeps the address after the CALL;
and the step that brings SP back to that value resumes there. -/
def Obligations.ReturnResumesAfterCall : Prop :=
  ∀ (n : Nat) (s t : State) (op : Word),
    s.status = .running → fetch s = some op → op &&& 0xF000 = 0x2000 → s.sp.toNat < 16 →
    stepN (n + 1) s = .next t →
    (∀ m u, m ≤ n → stepN (m + 1) s = .next u → s.sp.toNat < u.sp.toNat) →
    (entryAt t s.sp.toNat).toNat = s.ip.toNat + 2 ∧
    ∀ u, step t = .next u → u.sp = s.sp → u.ip.toNat = s.ip.toNat + 2

/-- R104 (derived by the spec from R70, R100, R101): the path of a run does not depend on any register value: with other registers the same steps answer, and all
else they leave is the same. -/
def Obligations.PathIgnoresRegisters : Prop :=
  ∀ (n : Nat) (s t : State) (w : Vector Byte 16), stepN n s = .next t →
    ∃ w', stepN n { s with v := w } = .next { t with v := w' }

/-- R15: IP and the live return addresses stay even as long as every CALL target is even. -/
def Obligations.EvenInstructionPointerStays : Prop :=
  ∀ s t : State, s.sp.toNat ≤ 16 → s.ip.toNat % 2 = 0 → (∀ k, k < s.sp.toNat → (entryAt s k).toNat % 2 = 0) →
    (∀ op, fetch s = some op → op &&& 0xF000 = 0x2000 → op.toNat % 2 = 0) → step s = .next t →
    t.ip.toNat % 2 = 0 ∧ ∀ k, k < t.sp.toNat → (entryAt t k).toNat % 2 = 0

/-- R14, R18, R21, R25: the invariant holds at reset. -/
def Obligations.ResetSatisfiesInvariant : Prop := MachineInv State.reset

/-- R14, R18, R21, R23, R75, R102, R130: every step of the core keeps the invariant. -/
def Obligations.StepKeepsInvariant : Prop :=
  ∀ s t : State, MachineInv s → step s = .next t → MachineInv t

/-- R111 to R117: every host operation, accepted or rejected, keeps the invariant. -/
def Obligations.HostKeepsInvariant : Prop :=
  ∀ (op : HostOp) (s : State), MachineInv s → MachineInv (hostStep op s).2

/-- R14, R18: in every state that the core and the host reach from reset the invariant holds and the next step answers a
next state: no reachable state stops. -/
def Obligations.ReachableStatesAreSafe : Prop :=
  ∀ s : State, Reachable s → MachineInv s ∧ ∃ t, step s = .next t

/-- R167 (derived by the spec): a cycle that does not end the run lowers the bound on the cycles left. -/
def Obligations.CycleLowersBound : Prop :=
  ∀ s t : State, MachineInv s → s.status = .running → step s = .next t → t.status = .running →
    cyclesLeft t < cyclesLeft s

/-- R167 (derived by the spec): every run ends, HALTED or FAULTED, in fewer than 2 × 2048^17 cycles, from whatever memory and registers. -/
def Obligations.EveryRunEnds : Prop :=
  ∀ s : State, Reachable s → s.status = .running →
    ∃ n t, n < 2 * 2048 ^ 17 ∧ stepN n s = .next t ∧ Ended t
end

