-- ==== Sys2Proof/Laws/Encoding.lean ====
section
/-! SUPPORT. Laws of the decoder, the encoder and their fields. -/

namespace Sys2Proof

/-- Every instruction is well formed: its operand types hold exactly what its fields hold (R10, R55). -/
theorem Instr.wf_all (i : Instr) : i.wf = true := by
  cases i with
  | halt => rfl
  | add x y => simp [Instr.wf, Instr.toAsm, AsmLine.wf, regOperandOk]
  | ret => rfl
  | call nnn =>
    have := nnn.isLt
    simp [Instr.wf, Instr.toAsm, AsmLine.wf, addrOperandOk]
    omega

@[simp] theorem regOfField_fieldOfReg (i : RegIndex) : regOfField (fieldOfReg i) = i := by
  revert i; decide

@[simp] theorem fieldOfReg_regOfField (n : BitVec 4) : fieldOfReg (regOfField n) = n := by
  revert n; decide

@[simp] theorem wordOfBytes_high_low (w : Word) : wordOfBytes (highByte w) (lowByte w) = w := by
  apply BitVec.eq_of_toNat_eq
  have := w.isLt
  simp only [wordOfBytes, highByte, lowByte, BitVec.toNat_append, BitVec.extractLsb'_toNat, Nat.shiftRight_zero]
  rw [Nat.shiftLeft_eq, ← Nat.shiftLeft_eq, ← Nat.shiftLeft_add_eq_or_of_lt (by omega), Nat.shiftLeft_eq,
    Nat.shiftRight_eq_div_pow]
  omega

@[simp] theorem highByte_wordOfBytes (hi lo : Byte) : highByte (wordOfBytes hi lo) = hi := by
  apply BitVec.eq_of_toNat_eq
  have := hi.isLt
  have := lo.isLt
  simp only [wordOfBytes, highByte, BitVec.toNat_append, BitVec.extractLsb'_toNat]
  rw [← Nat.shiftLeft_add_eq_or_of_lt (by omega), Nat.shiftLeft_eq, Nat.shiftRight_eq_div_pow]
  omega

@[simp] theorem lowByte_wordOfBytes (hi lo : Byte) : lowByte (wordOfBytes hi lo) = lo := by
  apply BitVec.eq_of_toNat_eq
  have := hi.isLt
  have := lo.isLt
  simp only [wordOfBytes, lowByte, BitVec.toNat_append, BitVec.extractLsb'_toNat, Nat.shiftRight_zero]
  rw [← Nat.shiftLeft_add_eq_or_of_lt (by omega), Nat.shiftLeft_eq]
  omega

/-- What the decoder can answer (R53): one of the four instructions, each with the fields that choose it, or a rejection
that names the word. -/
theorem decodeWord_cases (op : Word) :
    (op = 0x0000 ∧ decodeWord op = .ok .halt) ∨
    (fieldC op = 0x8 ∧ fieldD op = 0x4 ∧
      decodeWord op = .ok (.add (regOfField (fieldX op)) (regOfField (fieldY op)))) ∨
    (op = 0x00EE ∧ decodeWord op = .ok .ret) ∨
    (fieldC op = 0x2 ∧ decodeWord op = .ok (.call (fieldNNN op))) ∨
    decodeWord op = .error (.unimplementedOpcode op) := by
  have key : ∀ v : Word, fieldC op = fieldC v → fieldX op = fieldX v → fieldY op = fieldY v → fieldD op = fieldD v →
      op = v := by
    intro v hc hx hy hd
    apply BitVec.eq_of_toNat_eq
    have h1 := congrArg BitVec.toNat hc
    have h2 := congrArg BitVec.toNat hx
    have h3 := congrArg BitVec.toNat hy
    have h4 := congrArg BitVec.toNat hd
    have := op.isLt
    have := v.isLt
    simp only [fieldC, fieldX, fieldY, fieldD, BitVec.extractLsb'_toNat, Nat.shiftRight_eq_div_pow] at h1 h2 h3 h4
    omega
  unfold decodeWord
  split
  · rename_i h
    exact .inl ⟨key 0x0000 h.1 h.2.1 h.2.2.1 h.2.2.2, rfl⟩
  · split
    · rename_i h
      exact .inr (.inl ⟨h.1, h.2, rfl⟩)
    · split
      · rename_i h
        exact .inr (.inr (.inl ⟨key 0x00EE h.1 h.2.1 h.2.2.1 h.2.2.2, rfl⟩))
      · split
        · rename_i h
          exact .inr (.inr (.inr (.inl ⟨h, rfl⟩)))
        · exact .inr (.inr (.inr (.inr rfl)))

end Sys2Proof
end

