-- ==== Sys2Proof/Laws/Memory.lean ====
section
/-! SUPPORT. Memory: a read after a write, and that every memory operation keeps the canonical form. -/

namespace Sys2Proof.Machine

/-- A memory whose addresses all lie above `a` lists nothing at `a`. -/
theorem memByte_of_below {m : Memory} {a : Nat} (h : ∀ c ∈ m, a < c.1) : memByte m a = unlistedByte := by
  induction m with
  | nil => rfl
  | cons c rest ih =>
    obtain ⟨b, w⟩ := c
    have hb : a < b := h (b, w) (by simp)
    simp only [memByte, if_neg (Nat.ne_of_lt hb)]
    exact ih fun c hc => h c (by simp [hc])

/-- Putting a cell in front of a memory whose addresses lie above it sets that cell alone. -/
theorem memByte_consCell {rest : Memory} {a : Nat} (v : Byte) (h : ∀ c ∈ rest, a < c.1) (b : Nat) :
    memByte (consCell a v rest) b = if b = a then v else memByte rest b := by
  unfold consCell
  by_cases hv : v = unlistedByte
  · by_cases hb : b = a
    · simp [hv, hb, memByte_of_below h]
    · simp [hv, hb]
  · simp [hv, memByte]

/-- A sorted memory with `(b, w)` at its head has every other address above `b`. -/
theorem above_of_sorted {b : Nat} {w : Byte} {rest : Memory}
    (h : (((b, w) :: rest : Memory).map Prod.fst).Pairwise (· < ·)) : ∀ c ∈ rest, b < c.1 := by
  intro c hc
  exact (List.pairwise_cons.1 (by simpa using h)).1 c.1 (List.mem_map_of_mem hc)

/-- The tail of a sorted memory is sorted. -/
theorem sorted_tail {c : Host.Cell} {rest : Memory} (h : ((c :: rest : Memory).map Prod.fst).Pairwise (· < ·)) :
    (rest.map Prod.fst).Pairwise (· < ·) :=
  (List.pairwise_cons.1 (by simpa using h)).2

/-- Read after write, for one cell: `memSet m a v` sets cell `a` to `v` and leaves every other cell alone. -/
theorem memByte_memSet {m : Memory} (h : (m.map Prod.fst).Pairwise (· < ·)) (a : Nat) (v : Byte) (b : Nat) :
    memByte (memSet m a v) b = if b = a then v else memByte m b := by
  induction m with
  | nil => exact memByte_consCell v (by simp) b
  | cons c rest ih =>
    obtain ⟨k, w⟩ := c
    have habove := above_of_sorted h
    by_cases h1 : a < k
    · simp only [memSet, if_pos h1]
      refine memByte_consCell v ?_ b
      rintro c (_ | ⟨_, hc⟩)
      · exact h1
      · exact Nat.lt_trans h1 (habove c hc)
    · by_cases h2 : a = k
      · subst h2
        simp only [memSet, if_neg h1, if_true]
        rw [memByte_consCell v habove b]
        by_cases hb : b = a <;> simp [hb, memByte]
      · simp only [memSet, if_neg h1, if_neg h2, memByte]
        rw [ih (sorted_tail h)]
        by_cases hb : b = k
        · have : b ≠ a := by omega
          simp [hb, Ne.symm h2]
        · simp [hb]

/-- The addresses of `memSet m a v` are `a` and those of `m`. -/
theorem mem_memSet {m : Memory} {a : Nat} {v : Byte} {c : Host.Cell} (h : c ∈ memSet m a v) :
    (c = (a, v) ∧ v ≠ unlistedByte) ∨ c ∈ m := by
  induction m with
  | nil =>
    simp only [memSet, consCell] at h
    split at h <;> simp_all
  | cons d rest ih =>
    obtain ⟨k, w⟩ := d
    simp only [memSet, consCell] at h
    split at h
    · split at h <;> simp_all
    · split at h
      · split at h <;> simp_all
        rcases h with h | h <;> simp [h]
      · rcases List.mem_cons.1 h with h | h
        · simp [h]
        · rcases ih h with h | h
          · exact .inl h
          · simp [h]

/-- `memSet` keeps addresses rising. -/
theorem sorted_memSet {m : Memory} (h : (m.map Prod.fst).Pairwise (· < ·)) (a : Nat) (v : Byte) :
    ((memSet m a v).map Prod.fst).Pairwise (· < ·) := by
  have hcons : ∀ {rest : Memory}, (rest.map Prod.fst).Pairwise (· < ·) → (∀ c ∈ rest, a < c.1) →
      ((consCell a v rest).map Prod.fst).Pairwise (· < ·) := by
    intro rest hs ha
    unfold consCell
    split
    · exact hs
    · simp only [List.map_cons, List.pairwise_cons]
      refine ⟨?_, hs⟩
      intro k hk
      obtain ⟨c, hc, rfl⟩ := List.mem_map.1 hk
      exact ha c hc
  induction m with
  | nil => exact hcons List.Pairwise.nil (by simp)
  | cons c rest ih =>
    obtain ⟨k, w⟩ := c
    have habove := above_of_sorted h
    by_cases h1 : a < k
    · simp only [memSet, if_pos h1]
      refine hcons h ?_
      rintro c (_ | ⟨_, hc⟩)
      · exact h1
      · exact Nat.lt_trans h1 (habove c hc)
    · by_cases h2 : a = k
      · subst h2
        simp only [memSet, if_neg h1, if_true]
        exact hcons (sorted_tail h) habove
      · simp only [memSet, if_neg h1, if_neg h2, List.map_cons, List.pairwise_cons]
        refine ⟨?_, ih (sorted_tail h)⟩
        intro j hj
        obtain ⟨c, hc, rfl⟩ := List.mem_map.1 hj
        rcases mem_memSet hc with ⟨rfl, _⟩ | hc
        · show k < a
          omega
        · exact habove c hc

/-- Setting a cell of memory keeps the canonical form. -/
theorem wf_memSet {m : Memory} (h : Memory.wf m) {a : Nat} (ha : a < Config.memSize) (v : Byte) :
    Memory.wf (memSet m a v) := by
  refine ⟨sorted_memSet h.1 a v, ?_⟩
  intro c hc
  rcases mem_memSet hc with ⟨rfl, hv⟩ | hc
  · exact ⟨ha, hv⟩
  · exact h.2 c hc

/-- MemWrite keeps the canonical form (R8). -/
theorem wf_memWrite16 {m m' : Memory} {a : Nat} {v : Word} (h : Memory.wf m) (hw : memWrite16 m a v = some m') :
    Memory.wf m' := by
  unfold memWrite16 at hw
  split at hw
  · rename_i ha
    cases hw
    exact wf_memSet (wf_memSet h (by omega) _) ha _
  · cases hw

/-- The cells after a MemWrite: the two addressed, and every other as before (R8, R34). -/
theorem memByte_memWrite16 {m m' : Memory} {a : Nat} {v : Word} (h : Memory.wf m) (hw : memWrite16 m a v = some m')
    (b : Nat) :
    memByte m' b = if b = a + 1 then lowByte v else if b = a then highByte v else memByte m b := by
  unfold memWrite16 at hw
  split at hw
  · cases hw
    rw [memByte_memSet (sorted_memSet h.1 _ _), memByte_memSet h.1]
  · cases hw

/-- MemWrite is defined exactly where both cells exist (R8, R38). -/
theorem memWrite16_isSome_iff (m : Memory) (a : Nat) (v : Word) : (memWrite16 m a v).isSome ↔ a ≤ 4094 := by
  unfold memWrite16
  split <;> simp_all <;> omega

/-- MemRead answers exactly where both cells exist, with the byte at the lower address on top (R7, R30, R38). -/
theorem memRead16_eq_some_iff (m : Memory) (a : Nat) (w : Word) :
    memRead16 m a = some w ↔ a ≤ 4094 ∧ wordOfBytes (memByte m a) (memByte m (a + 1)) = w := by
  unfold memRead16
  split <;> simp_all <;> omega

/-- MemRead out of bounds reads nothing (R7, R38). -/
theorem memRead16_eq_none_iff (m : Memory) (a : Nat) : memRead16 m a = none ↔ 4094 < a := by
  unfold memRead16
  split <;> simp_all <;> omega

/-- The memory after reset is in canonical form. -/
theorem wf_reset : Memory.wf State.reset.mem := by decide

end Sys2Proof.Machine
end

