-- ==== Sys2Proof/Laws/State.lean ====
section
/-! SUPPORT. What each named update of the state does to each field: one lemma per field per update, so that no later proof
unfolds an update. -/

namespace Sys2Proof.Machine

variable (s : State)

/-! ### setIp -/

@[simp] theorem setIp_v (a : Word) : (setIp s a).v = s.v := rfl
@[simp] theorem setIp_mem (a : Word) : (setIp s a).mem = s.mem := rfl
@[simp] theorem setIp_ip (a : Word) : (setIp s a).ip = a := rfl
@[simp] theorem setIp_stack (a : Word) : (setIp s a).stack = s.stack := rfl
@[simp] theorem setIp_sp (a : Word) : (setIp s a).sp = s.sp := rfl
@[simp] theorem setIp_status (a : Word) : (setIp s a).status = s.status := rfl
@[simp] theorem setIp_faultKind (a : Word) : (setIp s a).faultKind = s.faultKind := rfl
@[simp] theorem setIp_faultOpcode (a : Word) : (setIp s a).faultOpcode = s.faultOpcode := rfl
@[simp] theorem setIp_faultIp (a : Word) : (setIp s a).faultIp = s.faultIp := rfl

/-! ### setStatus -/

@[simp] theorem setStatus_v (st : Status) : (setStatus s st).v = s.v := rfl
@[simp] theorem setStatus_mem (st : Status) : (setStatus s st).mem = s.mem := rfl
@[simp] theorem setStatus_ip (st : Status) : (setStatus s st).ip = s.ip := rfl
@[simp] theorem setStatus_stack (st : Status) : (setStatus s st).stack = s.stack := rfl
@[simp] theorem setStatus_sp (st : Status) : (setStatus s st).sp = s.sp := rfl
@[simp] theorem setStatus_status (st : Status) : (setStatus s st).status = st := rfl
@[simp] theorem setStatus_faultKind (st : Status) : (setStatus s st).faultKind = s.faultKind := rfl
@[simp] theorem setStatus_faultOpcode (st : Status) : (setStatus s st).faultOpcode = s.faultOpcode := rfl
@[simp] theorem setStatus_faultIp (st : Status) : (setStatus s st).faultIp = s.faultIp := rfl

/-! ### setMem -/

@[simp] theorem setMem_v (m : Memory) : (setMem s m).v = s.v := rfl
@[simp] theorem setMem_mem (m : Memory) : (setMem s m).mem = m := rfl
@[simp] theorem setMem_ip (m : Memory) : (setMem s m).ip = s.ip := rfl
@[simp] theorem setMem_stack (m : Memory) : (setMem s m).stack = s.stack := rfl
@[simp] theorem setMem_sp (m : Memory) : (setMem s m).sp = s.sp := rfl
@[simp] theorem setMem_status (m : Memory) : (setMem s m).status = s.status := rfl
@[simp] theorem setMem_faultKind (m : Memory) : (setMem s m).faultKind = s.faultKind := rfl
@[simp] theorem setMem_faultOpcode (m : Memory) : (setMem s m).faultOpcode = s.faultOpcode := rfl
@[simp] theorem setMem_faultIp (m : Memory) : (setMem s m).faultIp = s.faultIp := rfl

/-! ### writeReg -/

@[simp] theorem writeReg_v (i : RegIndex) (b : Byte) : (writeReg s i b).v = s.v.set i b := rfl
@[simp] theorem writeReg_mem (i : RegIndex) (b : Byte) : (writeReg s i b).mem = s.mem := rfl
@[simp] theorem writeReg_ip (i : RegIndex) (b : Byte) : (writeReg s i b).ip = s.ip := rfl
@[simp] theorem writeReg_stack (i : RegIndex) (b : Byte) : (writeReg s i b).stack = s.stack := rfl
@[simp] theorem writeReg_sp (i : RegIndex) (b : Byte) : (writeReg s i b).sp = s.sp := rfl
@[simp] theorem writeReg_status (i : RegIndex) (b : Byte) : (writeReg s i b).status = s.status := rfl
@[simp] theorem writeReg_faultKind (i : RegIndex) (b : Byte) : (writeReg s i b).faultKind = s.faultKind := rfl
@[simp] theorem writeReg_faultOpcode (i : RegIndex) (b : Byte) : (writeReg s i b).faultOpcode = s.faultOpcode := rfl
@[simp] theorem writeReg_faultIp (i : RegIndex) (b : Byte) : (writeReg s i b).faultIp = s.faultIp := rfl

/-! ### pushReturn -/

@[simp] theorem pushReturn_v (ret : Word) : (pushReturn s ret).v = s.v := rfl
@[simp] theorem pushReturn_mem (ret : Word) : (pushReturn s ret).mem = s.mem := rfl
@[simp] theorem pushReturn_ip (ret : Word) : (pushReturn s ret).ip = s.ip := rfl
@[simp] theorem pushReturn_stack (ret : Word) : (pushReturn s ret).stack = s.stack.setIfInBounds s.sp.toNat ret := rfl
@[simp] theorem pushReturn_sp (ret : Word) : (pushReturn s ret).sp = s.sp + 1 := rfl
@[simp] theorem pushReturn_status (ret : Word) : (pushReturn s ret).status = s.status := rfl
@[simp] theorem pushReturn_faultKind (ret : Word) : (pushReturn s ret).faultKind = s.faultKind := rfl
@[simp] theorem pushReturn_faultOpcode (ret : Word) : (pushReturn s ret).faultOpcode = s.faultOpcode := rfl
@[simp] theorem pushReturn_faultIp (ret : Word) : (pushReturn s ret).faultIp = s.faultIp := rfl

/-! ### popReturn -/

@[simp] theorem popReturn_v : (popReturn s).v = s.v := rfl
@[simp] theorem popReturn_mem : (popReturn s).mem = s.mem := rfl
@[simp] theorem popReturn_ip : (popReturn s).ip = s.ip := rfl
@[simp] theorem popReturn_stack : (popReturn s).stack = s.stack := rfl
@[simp] theorem popReturn_sp : (popReturn s).sp = s.sp - 1 := rfl
@[simp] theorem popReturn_status : (popReturn s).status = s.status := rfl
@[simp] theorem popReturn_faultKind : (popReturn s).faultKind = s.faultKind := rfl
@[simp] theorem popReturn_faultOpcode : (popReturn s).faultOpcode = s.faultOpcode := rfl
@[simp] theorem popReturn_faultIp : (popReturn s).faultIp = s.faultIp := rfl

/-! ### advance -/

@[simp] theorem advance_v : (advance s).v = s.v := rfl
@[simp] theorem advance_mem : (advance s).mem = s.mem := rfl
@[simp] theorem advance_ip : (advance s).ip = s.ip + 2 := rfl
@[simp] theorem advance_stack : (advance s).stack = s.stack := rfl
@[simp] theorem advance_sp : (advance s).sp = s.sp := rfl
@[simp] theorem advance_status : (advance s).status = s.status := rfl
@[simp] theorem advance_faultKind : (advance s).faultKind = s.faultKind := rfl
@[simp] theorem advance_faultOpcode : (advance s).faultOpcode = s.faultOpcode := rfl
@[simp] theorem advance_faultIp : (advance s).faultIp = s.faultIp := rfl

/-! ### faultEntry -/

@[simp] theorem faultEntry_v (k : FaultKind) (a op : Word) : (faultEntry k a op s).v = s.v := rfl
@[simp] theorem faultEntry_mem (k : FaultKind) (a op : Word) : (faultEntry k a op s).mem = s.mem := rfl
@[simp] theorem faultEntry_ip (k : FaultKind) (a op : Word) : (faultEntry k a op s).ip = s.ip := rfl
@[simp] theorem faultEntry_stack (k : FaultKind) (a op : Word) : (faultEntry k a op s).stack = s.stack := rfl
@[simp] theorem faultEntry_sp (k : FaultKind) (a op : Word) : (faultEntry k a op s).sp = s.sp := rfl
@[simp] theorem faultEntry_status (k : FaultKind) (a op : Word) : (faultEntry k a op s).status = .faulted := rfl
@[simp] theorem faultEntry_faultKind (k : FaultKind) (a op : Word) : (faultEntry k a op s).faultKind = some k := rfl
@[simp] theorem faultEntry_faultOpcode (k : FaultKind) (a op : Word) : (faultEntry k a op s).faultOpcode = recordedOpcode k op := rfl
@[simp] theorem faultEntry_faultIp (k : FaultKind) (a op : Word) : (faultEntry k a op s).faultIp = a := rfl

/-! ### What FAULT_OPCODE records -/

@[simp] theorem recordedOpcode_stackOverflow (op : Word) : recordedOpcode .stackOverflow op = op := rfl
@[simp] theorem recordedOpcode_stackUnderflow (op : Word) : recordedOpcode .stackUnderflow op = op := rfl
@[simp] theorem recordedOpcode_unimplementedOpcode (op : Word) : recordedOpcode .unimplementedOpcode op = op := rfl
@[simp] theorem recordedOpcode_fetchOutOfBounds (op : Word) : recordedOpcode .fetchOutOfBounds op = 0 := rfl

end Sys2Proof.Machine
end

