-- ==== Sys2Proof/Laws/HostPort.lean ====
section
/-! SUPPORT. What a host operation can do, said once. -/

namespace Sys2Proof.Machine

theorem hostStep_of_accepted {op : HostOp} {s : State} (h : hostAccepts op s = true) :
    hostStep op s = (hostValue op s, hostEffect op s) := by
  simp [hostStep, h]

theorem hostStep_of_rejected {op : HostOp} {s : State} (h : hostAccepts op s = false) :
    hostStep op s = (.rejected, s) := by
  simp [hostStep, h]

/-- Everything a host operation can do to the state (R111 to R116). -/
theorem hostStep_cases (op : HostOp) (s : State) :
    (hostStep op s).2 = s ∨
    (op = .create ∧ (hostStep op s).2 = State.reset) ∨
    (∃ address opcode m, op = .load address opcode ∧ s.status = .idle ∧
      memWrite16 s.mem address.toNat opcode = some m ∧ (hostStep op s).2 = setMem s m) ∨
    (∃ i b, op = .regWrite i b ∧ s.status = .idle ∧ (hostStep op s).2 = writeReg s i b) ∨
    (op = .run ∧ s.status = .idle ∧ (hostStep op s).2 = setStatus s .running) := by
  cases ha : hostAccepts op s with
  | false => exact .inl (by rw [hostStep_of_rejected ha])
  | true =>
    rw [hostStep_of_accepted ha]
    cases op with
    | create => exact .inr (.inl ⟨rfl, rfl⟩)
    | load address opcode =>
      cases hw : memWrite16 s.mem address.toNat opcode with
      | none => exact .inl (by simp [hostEffect, hostLoad, hw])
      | some m =>
        refine .inr (.inr (.inl ⟨address, opcode, m, rfl, ?_, hw, by simp [hostEffect, hostLoad, hw]⟩))
        simp only [hostAccepts, Bool.and_eq_true, beq_iff_eq] at ha
        exact ha.1
    | regWrite i b => exact .inr (.inr (.inr (.inl ⟨i, b, rfl, by simpa [hostAccepts] using ha, rfl⟩)))
    | regRead i => exact .inl rfl
    | run => exact .inr (.inr (.inr (.inr ⟨rfl, by simpa [hostAccepts] using ha, rfl⟩)))

end Sys2Proof.Machine
end

