-- ==== Sys2Proof/Laws/PerInstr.lean ====
section
/-! SUPPORT. The family EncodingFitsRow, one lemma per constructor: the word of an instruction matches its own row of the
opcode table (R53) and no other. -/

namespace Sys2Proof.Laws.EncodingFitsRow

/-- The instruction's word matches the row of its mnemonic and no other row of the table. -/
def Statement (i : Instr) : Prop :=
  ∀ r ∈ opcodeTable, (r.matchesWord (encode i) = true ↔ r = opcodeRow i)

theorem halt : Statement .halt := by
  unfold Statement
  decide

theorem add (x y : RegIndex) : Statement (.add x y) := by
  unfold Statement
  revert x y
  decide +kernel

theorem ret : Statement .ret := by
  unfold Statement
  decide

theorem call (nnn : MemAddr) : Statement (.call nnn) := by
  have hc : encode (.call nnn) &&& 0xF000 = 0x2000 := by
    apply BitVec.eq_of_getLsbD_eq
    intro i hi
    simp only [encode, BitVec.getLsbD_and, BitVec.getLsbD_append]
    interval_cases i <;> simp
  have hm : ∀ m p : Word, (encode (.call nnn) &&& m = p) → (0x2000 &&& m = p &&& 0xF000) := by
    intro m p h
    rw [← hc, ← h]
    apply BitVec.eq_of_getLsbD_eq
    intro i hi
    simp only [BitVec.getLsbD_and]
    cases (encode (.call nnn)).getLsbD i <;> simp [Bool.and_comm]
  intro r hr
  simp only [opcodeTable, List.mem_cons, List.not_mem_nil, or_false] at hr
  rcases hr with rfl | rfl | rfl | rfl
  · exact iff_of_false (fun h => absurd (hm _ _ (by simpa [OpcodeRow.matchesWord] using h)) (by decide)) (show ¬ haltRow = callRow by decide)
  · exact iff_of_false (fun h => absurd (hm _ _ (by simpa [OpcodeRow.matchesWord] using h)) (by decide)) (show ¬ addRow = callRow by decide)
  · exact iff_of_false (fun h => absurd (hm _ _ (by simpa [OpcodeRow.matchesWord] using h)) (by decide)) (show ¬ retRow = callRow by decide)
  · exact iff_of_true (by simpa [OpcodeRow.matchesWord, callRow] using hc) rfl

end Sys2Proof.Laws.EncodingFitsRow
end

