-- ==== Sys2Proof/Laws/Step.lean ====
section
/-! SUPPORT. What each meaning, the cycle and the step can do, said once: the lemmas that proofs about steps cite instead of
unfolding the machine. -/

namespace Sys2Proof.Machine

/-! ### The meanings -/

@[simp] theorem readReg_eq (s : State) (i : RegIndex) : readReg s i = s.v[i] := rfl

theorem execHalt_eq (s : State) : execHalt s = .next (setStatus s .halted) := rfl

theorem execAdd_eq (x y : RegIndex) (s : State) :
    execAdd x y s =
      .next (writeReg (writeReg s x (aluSum (readReg s x) (readReg s y))) 15 (aluCarry (readReg s x) (readReg s y))) :=
  rfl

theorem execCall_of_full {s : State} (h : 16 ≤ s.sp.toNat) (nnn : MemAddr) :
    execCall nnn s = .next (faultEntry .stackOverflow (s.ip - 2) (encode (.call nnn)) s) := by
  simp [execCall, h, raiseAtDispatch]

theorem execCall_of_room {s : State} (h : s.sp.toNat < 16) (nnn : MemAddr) :
    execCall nnn s = .next (setIp (pushReturn s s.ip) (addressOperand nnn)) := by
  simp [execCall, Nat.not_le.2 h]

theorem execRet_of_empty {s : State} (h : s.sp = 0) :
    execRet s = .next (faultEntry .stackUnderflow (s.ip - 2) 0x00EE s) := by
  simp [execRet, h, raiseAtDispatch, encode]

theorem execRet_of_entry {s : State} {ret : Word} (h : s.sp ≠ 0) (ht : topReturn s = some ret) :
    execRet s = .next (setIp (popReturn s) ret) := by
  rw [execRet, if_neg h, ht]

theorem execRet_of_noEntry {s : State} (h : s.sp ≠ 0) (ht : topReturn s = none) :
    execRet s = .fault .stackIndexOutOfRange := by
  rw [execRet, if_neg h, ht]

/-- Where R17 gives an entry for RET to read. -/
theorem topReturn_eq_some {s : State} (h0 : 0 < s.sp.toNat) (h : s.sp.toNat ≤ 16) :
    topReturn s = some (s.stack[s.sp.toNat - 1]'(by omega)) := by
  simp [topReturn, show s.sp.toNat - 1 < 16 by omega]

/-- Everything an instruction can do when it answers a next state (R75, R90, R100, R101). -/
theorem exec_cases {i : Instr} {s t : State} (h : exec i s = .next t) :
    (i = .halt ∧ t = setStatus s .halted) ∨
    (∃ x y, i = .add x y ∧
      t = writeReg (writeReg s x (aluSum s.v[x] s.v[y])) 15 (aluCarry s.v[x] s.v[y])) ∨
    (i = .ret ∧ s.sp = 0 ∧ t = faultEntry .stackUnderflow (s.ip - 2) 0x00EE s) ∨
    (∃ ret, i = .ret ∧ s.sp ≠ 0 ∧ topReturn s = some ret ∧ t = setIp (popReturn s) ret) ∨
    (∃ nnn, i = .call nnn ∧ 16 ≤ s.sp.toNat ∧
      t = faultEntry .stackOverflow (s.ip - 2) (encode (.call nnn)) s) ∨
    (∃ nnn, i = .call nnn ∧ s.sp.toNat < 16 ∧ t = setIp (pushReturn s s.ip) (addressOperand nnn)) := by
  cases i with
  | halt => exact .inl ⟨rfl, by simpa [exec, execHalt_eq] using h.symm⟩
  | add x y => exact .inr (.inl ⟨x, y, rfl, by simpa [exec, execAdd_eq] using h.symm⟩)
  | ret =>
    refine .inr (.inr ?_)
    simp only [exec] at h
    by_cases h0 : s.sp = 0
    · rw [execRet_of_empty h0] at h
      exact .inl ⟨rfl, h0, by simpa using h.symm⟩
    · cases ht : topReturn s with
      | none => simp [execRet_of_noEntry h0 ht] at h
      | some ret =>
        rw [execRet_of_entry h0 ht] at h
        exact .inr (.inl ⟨ret, rfl, h0, rfl, by simpa using h.symm⟩)
  | call nnn =>
    refine .inr (.inr (.inr (.inr ?_)))
    simp only [exec] at h
    by_cases hf : 16 ≤ s.sp.toNat
    · rw [execCall_of_full hf] at h
      exact .inl ⟨nnn, rfl, hf, by simpa using h.symm⟩
    · rw [execCall_of_room (Nat.not_le.1 hf)] at h
      exact .inr ⟨nnn, rfl, Nat.not_le.1 hf, by simpa using h.symm⟩

/-! ### The cycle and the step -/

/-- A core that is not running does nothing (log entry 1). -/
theorem step_of_not_running {s : State} (h : s.status ≠ .running) : step s = .next s := by
  simp [step, coreStep, h]

theorem step_of_running {s : State} (h : s.status = .running) : step s = cycle s := by
  simp [step, coreStep, h]

theorem cycle_of_fetch {s : State} {op : Word} (h : fetch s = some op) : cycle s = runOpcode op s := by
  simp [cycle, h]

theorem cycle_of_noFetch {s : State} (h : fetch s = none) :
    cycle s = .next (faultEntry .fetchOutOfBounds s.ip 0 s) := by
  simp [cycle, h, raiseAtFetch]

theorem runOpcode_of_ok {op : Word} {i : Instr} (h : decodeWord op = .ok i) (s : State) :
    runOpcode op s = exec i (advance s) := by
  simp [runOpcode, h]

theorem runOpcode_of_error {op : Word} {r : DecodeReject} (h : decodeWord op = .error r) (s : State) :
    runOpcode op s = .next (faultEntry .unimplementedOpcode s.ip op (advance s)) := by
  simp [runOpcode, h, raiseAtDispatch]

theorem fetch_eq_some_iff (s : State) (op : Word) :
    fetch s = some op ↔
      s.ip.toNat ≤ 4094 ∧ wordOfBytes (memByte s.mem s.ip.toNat) (memByte s.mem (s.ip.toNat + 1)) = op :=
  memRead16_eq_some_iff _ _ _

theorem fetch_eq_none_iff (s : State) : fetch s = none ↔ 4094 < s.ip.toNat :=
  memRead16_eq_none_iff _ _

/-- Everything a step can do when it answers a next state (R70 to R77). -/
theorem step_cases {s t : State} (h : step s = .next t) :
    (s.status ≠ .running ∧ t = s) ∨
    (s.status = .running ∧ 4094 < s.ip.toNat ∧ t = faultEntry .fetchOutOfBounds s.ip 0 s) ∨
    (∃ op, s.status = .running ∧ fetch s = some op ∧ decodeWord op = .error (.unimplementedOpcode op) ∧
      t = faultEntry .unimplementedOpcode s.ip op (advance s)) ∨
    (∃ op i, s.status = .running ∧ fetch s = some op ∧ decodeWord op = .ok i ∧ exec i (advance s) = .next t) := by
  by_cases hr : s.status = .running
  · refine .inr ?_
    rw [step_of_running hr] at h
    cases hf : fetch s with
    | none =>
      rw [cycle_of_noFetch hf] at h
      exact .inl ⟨hr, (fetch_eq_none_iff s).1 hf, by simpa using h.symm⟩
    | some op =>
      rw [cycle_of_fetch hf] at h
      refine .inr ?_
      cases hd : decodeWord op with
      | ok i =>
        rw [runOpcode_of_ok hd] at h
        exact .inr ⟨op, i, hr, rfl, hd, h⟩
      | error r =>
        rw [runOpcode_of_error hd] at h
        rcases decodeWord_cases op with hc | hc | hc | hc | hc
        · simp [hc.2] at hd
        · simp [hc.2.2] at hd
        · simp [hc.2] at hd
        · simp [hc.2] at hd
        · exact .inl ⟨op, hr, rfl, hc, by simpa using h.symm⟩
  · rw [step_of_not_running hr] at h
    exact .inl ⟨hr, by simpa using h.symm⟩

end Sys2Proof.Machine
end

