-- ==== Sys2Proof/Laws/Safety.lean ====
section
/-! SUPPORT. The small lemmas of the terms that statements use: stack entries under each update, and runs. -/

namespace Sys2Proof

open Sys2Proof.Machine

/-! ### Stack entries -/

theorem entryAt_congr {s t : State} (h : t.stack = s.stack) (k : Nat) : entryAt t k = entryAt s k := by
  simp [entryAt, h]

theorem entryAt_of_lt (s : State) {k : Nat} (h : k < 16) : entryAt s k = s.stack[k] := by
  simp [entryAt, h]

theorem entryAt_of_ge (s : State) {k : Nat} (h : 16 ≤ k) : entryAt s k = 0 := by
  simp [entryAt, Nat.not_lt.2 h]

/-- A push sets the entry at SP and leaves every other alone (R100, R102). -/
theorem entryAt_pushReturn {s : State} (h : s.sp.toNat < 16) (ret : Word) (k : Nat) :
    entryAt (pushReturn s ret) k = if k = s.sp.toNat then ret else entryAt s k := by
  by_cases hk : k < 16
  · simp only [entryAt_of_lt _ hk, pushReturn_stack, Vector.getElem_setIfInBounds]
    by_cases he : s.sp.toNat = k
    · simp [he]
    · rw [if_neg he, if_neg (Ne.symm he)]
  · simp [entryAt_of_ge _ (Nat.not_lt.1 hk), show ¬k = s.sp.toNat by omega]

/-- RET reads the entry below SP (R101). -/
theorem topReturn_eq_entryAt {s : State} {ret : Word} (h : topReturn s = some ret) :
    ret = entryAt s (s.sp.toNat - 1) := by
  simp [entryAt, topReturn] at *
  simp [h]

/-! ### Runs -/

@[simp] theorem stepN_zero (s : State) : stepN 0 s = .next s := rfl

/-- The first step of a run (R77). -/
theorem stepN_succ_iff (n : Nat) (s t : State) :
    stepN (n + 1) s = .next t ↔ ∃ u, step s = .next u ∧ stepN n u = .next t := by
  simp only [stepN]
  cases step s <;> simp

/-- The last step of a run (R77). -/
theorem stepN_succ_last_iff (n : Nat) (s t : State) :
    stepN (n + 1) s = .next t ↔ ∃ u, stepN n s = .next u ∧ step u = .next t := by
  induction n generalizing s with
  | zero => simp [stepN_succ_iff]
  | succ n ih =>
    rw [stepN_succ_iff]
    constructor
    · rintro ⟨u, hu, hn⟩
      obtain ⟨w, hw, ht⟩ := (ih u).1 hn
      exact ⟨w, (stepN_succ_iff n s w).2 ⟨u, hu, hw⟩, ht⟩
    · rintro ⟨w, hw, ht⟩
      obtain ⟨u, hu, hn⟩ := (stepN_succ_iff n s w).1 hw
      exact ⟨u, hu, (ih u).2 ⟨w, hn, ht⟩⟩

/-! ### The bound on a run -/

@[simp] theorem activationBound_zero : activationBound 0 = 0 := rfl

theorem activationBound_succ (d : Nat) : activationBound (d + 1) = 2048 * (1 + activationBound d) := rfl

/-- Where a fetch is possible, moving on by one instruction takes one slot (R72, R167). -/
theorem slotsFrom_advance {a : Word} (h : a.toNat ≤ 4094) : slotsFrom (a + 2) + 1 = slotsFrom a := by
  have : (a + 2).toNat = a.toNat + 2 := by
    rw [BitVec.toNat_add]
    simp
    omega
  unfold slotsFrom
  omega

theorem slotsFrom_le (a : Word) : slotsFrom a ≤ 2048 := by
  unfold slotsFrom
  omega

end Sys2Proof
end

