-- ==== Sys2Proof/Tests/Slice0.lean ====
section
/-! SUPPORT. Tests against the spec's own vectors (spec/95_test_vectors.md and the examples in its rules), the smoke test of
WellFormed, and for every statement with hypotheses a witness that meets them. -/

namespace Sys2Proof.Tests

open Sys2Proof Sys2Proof.Machine

/-- The next state, if the outcome is one. -/
def nextOf : Host.Outcome State Fault Refusal → Option State
  | .next s => some s
  | _ => none

/-- A running core with this memory, IP and SP, all else as reset leaves it. -/
def coreAt (mem : Memory) (ip : Word) (sp : BitVec 5) : State :=
  { State.reset with mem := mem, ip := ip, sp := sp, status := .running }

/-- The core with one register set. -/
def withReg (i : RegIndex) (b : Byte) (s : State) : State := { s with v := s.v.set i b }

/-- The core with one stack entry set. -/
def withEntry (k : Fin 16) (a : Word) (s : State) : State := { s with stack := s.stack.set k a }

/-! ### WellFormed: each check refuses an ill-formed line -/

theorem test_wf_first_register : (AsmLine.add 16 0).wf = false := by decide
theorem test_wf_second_register : (AsmLine.add 0 16).wf = false := by decide
theorem test_wf_address : (AsmLine.call 0x1000).wf = false := by decide
theorem test_wf_word : (AsmLine.word 0x10000).wf = false := by decide
theorem test_wf_accepts : (AsmLine.add 15 15).wf ∧ (AsmLine.call 0xFFF).wf ∧ (AsmLine.word 0xFFFF).wf := by decide

/-! ### Decoding: words written out bit by bit from R53's patterns (vectors E1 to E24) -/

theorem test_decode_halt : decodeWord 0b0000000000000000 = .ok .halt := by decide
theorem test_decode_add : decodeWord 0b1000101010110100 = .ok (.add 0xA 0xB) := by decide
theorem test_decode_ret : decodeWord 0b0000000011101110 = .ok .ret := by decide
theorem test_decode_call : decodeWord 0b0010000011101110 = .ok (.call 0x0EE) := by decide
theorem test_decode_rejects :
    [0x8015, 0x8010, 0x00E0, 0x00EF, 0x0001, 0x0100, 0x0EEE, 0x1000, 0x1234, 0x3004, 0x9014, 0xABCD, 0xFFFF, 0xEE00].all
      (fun op : Word => decodeWord op = .error (.unimplementedOpcode op)) = true := by decide
theorem test_decode_too_few_bytes : decodeBytes [0x00] = .error .tooFewBytes := by decide
theorem test_decode_table_word :
    decodeTableWord 16 0x8AB4 = some (.add 10 11) ∧ decodeTableWord 16 0x2100 = some (.call 0x100) ∧
    decodeTableWord 16 0x1234 = none := by decide
theorem test_encode_words :
    encode (.add 0xF 0xF) = 0x8FF4 ∧ encodeBytes (.call 0x100) = [0x21, 0x00] ∧ encode .ret = 0x00EE := by decide

/-! ### The assembler (R59's table) -/

theorem test_asm_text_add : asmText (.add 10 11) = ['A', 'D', 'D', ' ', 'V', 'A', ',', ' ', 'V', 'B'] := by decide
theorem test_asm_text_at :
    asmTextAt 0x104 (.call 0x1FE) =
      ['0', 'x', '1', '0', '4', ':', ' ', 'C', 'A', 'L', 'L', ' ', '0', 'x', '1', 'F', 'E'] := by decide
theorem test_asm_loads :
    programLoads [(0x000, .call 0x101), (0x101, .add 0 1), (0x103, .word 0x00EE)] =
      some [.load 0x000 0x2101, .load 0x101 0x8014, .load 0x103 0x00EE] := by decide

/-! ### Memory (vectors M3 to M5) -/

theorem test_mem_later_write_wins :
    hostSession [.load 0x010 0xAABB, .load 0x011 0xCCDD] State.reset =
      { State.reset with mem := [(0x010, 0xAA), (0x011, 0xCC), (0x012, 0xDD)] } := by decide
theorem test_mem_misaligned_read :
    memRead16 (hostSession [.load 0x010 0xAABB, .load 0x012 0xCCDD] State.reset).mem 0x011 = some 0xBBCC := by decide
theorem test_mem_zero_removes_entry :
    (hostSession [.load 0x010 0xAABB, .load 0x010 0x0000] State.reset).mem = [] := by decide
theorem test_reset_memory_wf : Memory.wf State.reset.mem := by decide

/-! ### The instructions, one step each -/

/-- Vector A3: FF + 01 = 00 with carry. -/
theorem test_add_wraps :
    (nextOf (step (withReg 0 0xFF (withReg 1 0x01 (coreAt [(0, 0x80), (1, 0x14)] 0 0))))).map
      (fun t => (t.v[0], t.v[1], t.v[15], t.ip)) = some (0x00, 0x01, 0x01, 0x0002) := by decide
/-- Vector A11: VF = 03, V1 = 04, the sum 07 is lost and the flag lands last. -/
theorem test_add_into_flag :
    (nextOf (step (withReg 15 0x03 (withReg 1 0x04 (coreAt [(0, 0x8F), (1, 0x14)] 0 0))))).map
      (fun t => (t.v[15], t.v[1])) = some (0x00, 0x04) := by decide
/-- Vector F7: HALT at 0xFFE leaves IP = 4096 and records no fault. -/
theorem test_halt_at_end :
    (nextOf (step (coreAt [] 0xFFE 1))).map (fun t => (t.status, t.ip, t.sp, t.faultKind)) =
      some (.halted, 0x1000, 1, none) := by decide
/-- R100's example: CALL 0x100 at 0x000. -/
theorem test_call_example :
    (nextOf (step (coreAt [(0, 0x21)] 0 0))).map (fun t => (t.stack[0], t.sp, t.ip)) =
      some (0x0002, 1, 0x100) := by decide
/-- The 17th cycle of program P3: CALL with SP = 16. -/
theorem test_call_overflow :
    (nextOf (step (coreAt [(0, 0x20)] 0 16))).map
      (fun t => (t.status, t.sp, t.ip, outputs t)) =
      some (.faulted, 16, 0x0002, ⟨3, 1, 0x2000, 0x0000⟩) := by decide
/-- R101's example: RET at 0x104 with 0x0002 on the stack. -/
theorem test_ret_example :
    (nextOf (step (withEntry 0 0x0002 (coreAt [(0x105, 0xEE)] 0x104 1)))).map (fun t => (t.sp, t.ip, t.stack[0])) =
      some (0, 0x002, 0x0002) := by decide
/-- Vector F1: RET on an empty stack. -/
theorem test_ret_underflow :
    (nextOf (step (coreAt [(1, 0xEE)] 0 0))).map (fun t => (t.ip, t.sp, outputs t)) =
      some (0x0002, 0, ⟨3, 2, 0x00EE, 0x0000⟩) := by decide
/-- Vector F3, second cycle: opcode 8015 at 0x002. -/
theorem test_unimplemented :
    (nextOf (step (coreAt [(2, 0x80), (3, 0x15)] 2 0))).map (fun t => (t.ip, outputs t)) =
      some (0x0004, ⟨3, 3, 0x8015, 0x0002⟩) := by decide
/-- Vector F4, second cycle: a fetch at 0xFFF. -/
theorem test_fetch_out_of_bounds :
    (nextOf (step (coreAt [] 0xFFF 1))).map (fun t => (t.ip, outputs t)) =
      some (0x0FFF, ⟨3, 4, 0x0000, 0x0FFF⟩) := by decide
/-- Program P7: a fetch at the odd address 0x101 reads 80 14. -/
theorem test_fetch_odd : fetch (coreAt [(0x101, 0x80), (0x102, 0x14)] 0x101 1) = some 0x8014 := by decide

/-! ### The host (vectors H1 to H7, M3, M8) -/

theorem test_host_flag_register :
    hostStep (.regRead 15) (hostStep (.regWrite 15 0xAB) State.reset).2 =
      (.value 0xAB, (hostStep (.regWrite 15 0xAB) State.reset).2) := by decide
theorem test_host_load_4095 : hostStep (.load 0xFFF 0xABCD) State.reset = (.rejected, State.reset) := by decide
theorem test_host_after_halt :
    (hostStep (.regWrite 0 1) { State.reset with status := .halted }).1 = .rejected ∧
    (hostStep .run { State.reset with status := .halted }).1 = .rejected ∧
    (hostStep (.regRead 0) { State.reset with status := .faulted }).1 = .value 0 := by decide
/-- Vector H6: CREATE from a running core. -/
theorem test_host_create :
    hostStep .create (withReg 3 0x55 (coreAt [(0, 0x20)] 4 3)) = (.accepted, State.reset) := by decide
theorem test_fetch_word_runs_first :
    step (State.reset.withFetchWord 16 0x2100) =
      exec (.call 0x100) { State.reset with mem := [(0, 0x21)], ip := 2, status := .running } := by rfl

/-! ### Witnesses: the hypotheses of each statement can be met, at the boundaries of its clauses -/

theorem witness_EncodeOfDecodeIsWord :
    decodeWord 0x8AB4 = .ok (.add 10 11) ∧ decodeBytes [0x2F, 0xFF, 0x01] = .ok (.call 0xFFF, [0x01]) := by decide

theorem witness_PatternsAreDisjoint : [callRow, retRow, addRow, haltRow].Perm opcodeTable := by decide

theorem witness_HaltEndsTheRun : (coreAt [] 0xFFE 0).status = .running ∧ fetch (coreAt [] 0xFFE 0) = some 0x0000 := by
  decide

theorem witness_AddWritesSumThenCarry :
    (coreAt [(0xFFE, 0x8F), (0xFFF, 0xF4)] 0xFFE 0).status = .running ∧
    fetch (coreAt [(0xFFE, 0x8F), (0xFFF, 0xF4)] 0xFFE 0) = some (encode (.add 15 15)) := by decide

theorem witness_CallPushesReturnAddress :
    (coreAt [(0, 0x2F), (1, 0xFF)] 0 15).sp.toNat < 16 ∧ 16 ≤ (coreAt [(0, 0x2F), (1, 0xFF)] 0 16).sp.toNat ∧
    (∀ sp ∈ [(15 : BitVec 5), 16], (coreAt [(0, 0x2F), (1, 0xFF)] 0 sp).status = .running ∧
      fetch (coreAt [(0, 0x2F), (1, 0xFF)] 0 sp) = some (encode (.call 0xFFF))) := by decide

theorem witness_RetPopsReturnAddress :
    (coreAt [(1, 0xEE)] 0 0).sp = 0 ∧
    (∀ sp ∈ [(1 : BitVec 5), 16], 0 < (coreAt [(1, 0xEE)] 0 sp).sp.toNat ∧ (coreAt [(1, 0xEE)] 0 sp).sp.toNat ≤ 16) ∧
    (∀ sp ∈ [(0 : BitVec 5), 1, 16], (coreAt [(1, 0xEE)] 0 sp).status = .running ∧
      fetch (coreAt [(1, 0xEE)] 0 sp) = some 0x00EE) := by decide

theorem witness_RetStopsBeyondStack :
    16 < (coreAt [] 0 17).sp.toNat ∧ exec .ret (coreAt [] 0 17) = .fault .stackIndexOutOfRange := ⟨by decide, rfl⟩

theorem witness_AddFrame :
    (∃ t, exec (.add 1 2) State.reset = .next t) ∧ (3 : RegIndex) ≠ 1 ∧ (3 : RegIndex) ≠ 15 := ⟨⟨_, rfl⟩, by decide, by decide⟩

theorem witness_HaltCallRetFrame :
    (∃ t, exec .halt State.reset = .next t) ∧ (∃ t, exec .ret (coreAt [] 2 0) = .next t) ∧
    (∃ t, exec .ret (coreAt [] 2 1) = .next t) ∧ (∃ t, exec (.call 0xFFF) (coreAt [] 2 15) = .next t) ∧
    (∃ t, exec (.call 0xFFF) (coreAt [] 2 16) = .next t) ∧ (∀ x y, Instr.ret ≠ .add x y) :=
  ⟨⟨_, rfl⟩, ⟨_, rfl⟩, ⟨_, rfl⟩, ⟨_, rfl⟩, ⟨_, rfl⟩, by intro x y h; cases h⟩

theorem witness_FlagAsDestinationAndSource : (14 : RegIndex) ≠ 15 := by decide

theorem witness_AluAddition : (0 : RegIndex) ≠ 15 ∧ (14 : RegIndex) ≠ 15 := by decide

theorem witness_RegistersChangeOnlyByAdd :
    (nextOf (step (withReg 1 0x01 (coreAt [(0, 0x80), (1, 0x14)] 0 0)))).any
      (fun t => t.v ≠ (withReg 1 0x01 (coreAt [(0, 0x80), (1, 0x14)] 0 0)).v) = true := by decide

theorem witness_StepRunsDecodedInstruction :
    (coreAt [(4095, 0xEE)] 4094 1).status = .running ∧ (coreAt [(4095, 0xEE)] 4094 1).ip.toNat ≤ 4094 ∧
    decodeBytes [memByte [(4095, 0xEE)] 4094, memByte [(4095, 0xEE)] 4095] = .ok (.ret, []) := by decide

theorem witness_StepIdlesOutsideRun :
    State.reset.status ≠ .running ∧ (setStatus State.reset .halted).status ≠ .running ∧
    (setStatus State.reset .faulted).status ≠ .running := by decide

theorem witness_FetchReadsOrFaults :
    (coreAt [] 4094 0).ip.toNat ≤ 4094 ∧ 4094 < (coreAt [] 4095 0).ip.toNat ∧ 4094 < (coreAt [] 4096 0).ip.toNat ∧
    (coreAt [] 4095 0).status = .running := by decide

theorem witness_UnimplementedOpcodeFaults :
    (coreAt [(0, 0x80), (1, 0x15)] 0 0).status = .running ∧ fetch (coreAt [(0, 0x80), (1, 0x15)] 0 0) = some 0x8015 ∧
    MatchesNoRow 0x8015 := ⟨by decide, by decide, by unfold MatchesNoRow; decide⟩

theorem witness_AdvanceComesBeforeDispatch :
    fetch (coreAt [] 4094 0) = some 0x0000 ∧ (∃ t, step (coreAt [] 4094 0) = .next t ∧ t.status ≠ .running) ∧
    fetch (coreAt [(4094, 0x21)] 4094 15) = some 0x2100 ∧ (0x2100 : Word) &&& 0xF000 = 0x2000 ∧
    (∃ t, step (coreAt [(4094, 0x21)] 4094 15) = .next t) :=
  ⟨by decide, ⟨_, rfl, by decide⟩, by decide, by decide, ⟨_, rfl⟩⟩

theorem witness_CycleHasOneOfThreeOutcomes :
    (coreAt [] 0 16).status = .running ∧ (coreAt [] 0 16).sp.toNat ≤ 16 := by decide

theorem witness_StatusTransitions :
    (∃ t, step (coreAt [] 0 0) = .next t ∧ t.status = .halted) ∧ (∃ t, step (coreAt [] 4095 0) = .next t ∧ t.status = .faulted) ∧
    State.reset.status = .idle := ⟨⟨_, rfl, rfl⟩, ⟨_, rfl, rfl⟩, rfl⟩

theorem witness_EndedRunIsFinal :
    Ended (setStatus State.reset .halted) ∧ Ended (setStatus State.reset .faulted) ∧ HostOp.run ≠ .create ∧
    hostAccepts (.regRead 3) (setStatus State.reset .faulted) = true := ⟨.inl rfl, .inr rfl, by decide, by decide⟩

theorem witness_FaultTable :
    (∃ t, step (coreAt [(0, 0x20)] 0 16) = .next t ∧ t.status = .faulted ∧ t.faultKind = some .stackOverflow) ∧
    (∃ t, step (coreAt [(1, 0xEE)] 0 0) = .next t ∧ t.status = .faulted ∧ t.faultKind = some .stackUnderflow) ∧
    (∃ t, step (coreAt [(0, 0x12)] 0 0) = .next t ∧ t.status = .faulted ∧ t.faultKind = some .unimplementedOpcode) ∧
    (∃ t, step (coreAt [] 4096 0) = .next t ∧ t.status = .faulted ∧ t.faultKind = some .fetchOutOfBounds) :=
  ⟨⟨_, rfl, rfl, rfl⟩, ⟨_, rfl, rfl, rfl⟩, ⟨_, rfl, rfl, rfl⟩, ⟨_, rfl, rfl, rfl⟩⟩

theorem witness_FaultsArePrecise :
    (∃ t, step (coreAt [(1, 0xEE)] 0 0) = .next t ∧ t.status = .faulted ∧ t.faultKind ≠ some .fetchOutOfBounds) ∧
    (∃ t, step (coreAt [] 4095 0) = .next t ∧ t.status = .faulted ∧ t.faultKind = some .fetchOutOfBounds) :=
  ⟨⟨_, rfl, rfl, by decide⟩, ⟨_, rfl, rfl, rfl⟩⟩

theorem witness_MemoryConstantDuringRun : ∃ t, stepN 2 (coreAt [(0, 0x21)] 0 0) = .next t := ⟨_, rfl⟩

theorem witness_WriteThenReadReturnsWord : Memory.wf [(4094, 0x12), (4095, 0x34)] ∧ 4094 ≤ 4094 := by decide

theorem witness_OverlappingAccessesShareBytes :
    Memory.wf [] ∧ (memWrite16 [] 4092 0xAABB).isSome ∧
    ((memWrite16 [] 4092 0xAABB).bind (memWrite16 · 4094 0xCCDD)).isSome ∧
    ((memWrite16 [] 4093 0xAABB).bind (memWrite16 · 4094 0xCCDD)).isSome := by decide

theorem witness_CanonicalMemoryIsUnique :
    Memory.wf [(0, 0x01), (4095, 0xFF)] ∧ ∀ a, a < 4096 → memByte [(0, 0x01), (4095, 0xFF)] a = memByte [(0, 0x01), (4095, 0xFF)] a :=
  ⟨by decide, fun _ _ => rfl⟩

theorem witness_HostAcceptTable :
    (4094#12 : MemAddr).toNat ≤ 4094 ∧ hostAccepts .run (coreAt [] 0 0) = false ∧ hostAccepts .run State.reset = true := by
  decide

theorem witness_LoadWritesTwoCells :
    Memory.wf State.reset.mem ∧ State.reset.status = .idle ∧ (4094#12 : MemAddr).toNat ≤ 4094 ∧ 4093 ≠ 4094 := by decide

theorem witness_RegWriteSetsRegister : State.reset.status = .idle := rfl

theorem witness_RegReadReturnsRegister :
    State.reset.status = .idle ∧ (setStatus State.reset .halted).status = .halted ∧
    (setStatus State.reset .faulted).status = .faulted := by decide

theorem witness_RunStartsAtZero :
    State.reset.status = .idle ∧
    ∀ op ∈ [HostOp.load 0xFFE 0x8014, .regWrite 15 0x77, .regRead 0], op ≠ .create ∧ op ≠ .run := by decide

theorem witness_HostCannotReachTheRest :
    HostOp.load 0 0x8014 ≠ .create ∧ (coreAt [] 0 0).v = (coreAt [(0, 0x20)] 4 3).v ∧
    (coreAt [] 0 0).status = (coreAt [(0, 0x20)] 4 3).status := by decide

/-- Input ports with this command presented. -/
def portsWith (rst cmdValid : Bool) (cmd : BitVec 2) : PortIn := ⟨rst, cmdValid, cmd, 0xFFE, 0x8014, 15, 0xAB⟩

theorem witness_PortsCarryOperations :
    (portsWith true true 3).rst = true ∧ (portsWith false false 0).cmdValid = false ∧
    commandOf (portsWith false true 0) = .load 0xFFE 0x8014 ∧ commandOf (portsWith false true 1) = .regWrite 15 0xAB ∧
    commandOf (portsWith false true 2) = .regRead 15 ∧ commandOf (portsWith false true 3) = .run := by decide

/-- CALL 0x100 at 0x000 and RET at 0x100 (the source's S4). -/
def callThenRet : Memory := [(0x000, 0x21), (0x101, 0xEE)]

theorem witness_ReturnResumesAfterCall :
    fetch (coreAt callThenRet 0 0) = some 0x2100 ∧ (0x2100 : Word) &&& 0xF000 = 0x2000 ∧ (coreAt callThenRet 0 0).sp.toNat < 16 ∧
    ∃ t, stepN (0 + 1) (coreAt callThenRet 0 0) = .next t ∧
      (∀ m u, m ≤ 0 → stepN (m + 1) (coreAt callThenRet 0 0) = .next u → (coreAt callThenRet 0 0).sp.toNat < u.sp.toNat) ∧
      ∃ u, step t = .next u ∧ u.sp = (coreAt callThenRet 0 0).sp := by
  refine ⟨by decide, by decide, by decide, _, rfl, ?_, _, rfl, rfl⟩
  intro m u hm hu
  obtain rfl : m = 0 := Nat.le_zero.1 hm
  cases hu
  decide

theorem witness_PathIgnoresRegisters : ∃ t, stepN 3 (coreAt callThenRet 0 0) = .next t := ⟨_, rfl⟩

theorem witness_EvenInstructionPointerStays :
    (withEntry 0 0x0002 (coreAt callThenRet 0 1)).sp.toNat ≤ 16 ∧ (withEntry 0 0x0002 (coreAt callThenRet 0 1)).ip.toNat % 2 = 0 ∧
    (∀ k, k < (withEntry 0 0x0002 (coreAt callThenRet 0 1)).sp.toNat →
      (entryAt (withEntry 0 0x0002 (coreAt callThenRet 0 1)) k).toNat % 2 = 0) ∧
    (∀ op, fetch (withEntry 0 0x0002 (coreAt callThenRet 0 1)) = some op → op &&& 0xF000 = 0x2000 → op.toNat % 2 = 0) ∧
    ∃ t, step (withEntry 0 0x0002 (coreAt callThenRet 0 1)) = .next t := by
  refine ⟨by decide, by decide, by decide, ?_, _, rfl⟩
  intro op h _
  cases h
  decide

/-- A running core at 0x002 after a CALL at 0x100, about to run ADD V0, V0. -/
def insideCall : State := withEntry 0 0x0102 (coreAt [(0x002, 0x80), (0x003, 0x04), (0x100, 0x20), (0x101, 0x02)] 2 1)

/-- The invariant holds inside a subroutine. -/
theorem insideCall_inv : MachineInv insideCall where
  memWf := by decide
  ipBound := by decide
  stackBound := by
    intro k
    by_cases hk : k < 16
    · interval_cases k <;> decide
    · simp [entryAt, hk]
  spBound := by decide
  idleClean := by intro h; cases h
  noRecord := by intro _; exact ⟨rfl, rfl, rfl⟩
  record := by intro h; cases h
  liveReturns := by
    intro k hk
    obtain rfl : k = 0 := Nat.lt_one_iff.1 hk
    exact ⟨by decide, 0x2002, rfl, by decide⟩
  haltWord := by intro h; cases h

theorem witness_StepKeepsInvariant : MachineInv insideCall ∧ ∃ t, step insideCall = .next t := ⟨insideCall_inv, _, rfl⟩

theorem witness_HostKeepsInvariant : MachineInv insideCall := insideCall_inv

theorem witness_ReachableStatesAreSafe : Reachable (hostStep .run State.reset).2 := .host .run .reset

theorem witness_CycleLowersBound :
    MachineInv insideCall ∧ insideCall.status = .running ∧ ∃ t, step insideCall = .next t ∧ t.status = .running :=
  ⟨insideCall_inv, rfl, _, rfl, rfl⟩

theorem witness_EveryRunEnds :
    Reachable (hostStep .run State.reset).2 ∧ (hostStep .run State.reset).2.status = .running :=
  ⟨.host .run .reset, rfl⟩

end Sys2Proof.Tests
end

section
/-! PROOFS. Memory (spec/20_memory.md). -/

namespace Sys2Proof.Machine

/-- The word at an address, in the memory after a MemWrite there: the two cells read are the two cells written (R31). -/
theorem memRead16_of_memWrite16 {m m' : Memory} {a : Nat} {w : Word} (hwf : Memory.wf m)
    (hw : memWrite16 m a w = some m') : memRead16 m' a = some w := by
  have ha : a ≤ 4094 := (memWrite16_isSome_iff m a w).1 (by simp [hw])
  have hhigh : memByte m' a = highByte w := by simp [memByte_memWrite16 hwf hw]
  have hlow : memByte m' (a + 1) = lowByte w := by simp [memByte_memWrite16 hwf hw]
  exact (memRead16_eq_some_iff m' a w).2 ⟨ha, by rw [hhigh, hlow, wordOfBytes_high_low]⟩

/-- Settles O30: MemWrite is defined up to address 4094, and MemRead then finds the two bytes it stored. -/
theorem writeThenReadReturnsWord : Obligations.WriteThenReadReturnsWord := by
  intro m a w hwf ha
  obtain ⟨m', hw⟩ := Option.isSome_iff_exists.1 ((memWrite16_isSome_iff m a w).2 ha)
  exact ⟨m', hw, memRead16_of_memWrite16 hwf hw⟩

end Sys2Proof.Machine
end

section
/-! PROOFS. The fields of an opcode as masks, shifts and parts of its bytes (R51), and what they say of a row (R53). -/

namespace Sys2Proof

/-- A mask that is all ones on the bits of a field leaves the field as it is, so that a shift brings it down (R51). -/
theorem extractLsb'_eq_mask_shift {n k w : Nat} (v m : BitVec n) (hm : m.extractLsb' k w = BitVec.allOnes w) :
    v.extractLsb' k w = ((v &&& m) >>> k).setWidth w :=
  calc v.extractLsb' k w
    _ = v.extractLsb' k w &&& m.extractLsb' k w := by rw [hm, BitVec.and_allOnes]
    _ = (v &&& m).extractLsb' k w := BitVec.extractLsb'_and.symm
    _ = ((v &&& m) >>> k).setWidth w := by apply BitVec.eq_of_toNat_eq; simp

/-- `nnn = x ++ y ++ d` (R51). -/
theorem fieldNNN_eq_append (op : Word) : fieldNNN op = (fieldX op ++ fieldY op ++ fieldD op : BitVec 12) := by
  simp only [fieldNNN, fieldX, fieldY, fieldD, BitVec.extractLsb'_append_extractLsb'_eq_extractLsb']

/-- The address is x followed by the byte at the higher address (R51). -/
theorem fieldNNN_eq_fieldX_append_lowByte (op : Word) : fieldNNN op = (fieldX op ++ lowByte op : BitVec 12) := by
  simp only [fieldNNN, fieldX, lowByte, BitVec.extractLsb'_append_extractLsb'_eq_extractLsb']

/-- An opcode is `c ++ nnn` (R51). -/
theorem fieldC_append_fieldNNN (op : Word) : (fieldC op ++ fieldNNN op : BitVec 16) = op :=
  BitVec.extractLsb'_append_extractLsb'

/-- An opcode is `c ++ x ++ y ++ d` (R51). -/
theorem append_fields (op : Word) : (fieldC op ++ fieldX op ++ fieldY op ++ fieldD op : BitVec 16) = op := by
  simp only [fieldC, fieldX, fieldY, fieldD, BitVec.extractLsb'_append_extractLsb'_eq_extractLsb']
  exact BitVec.extractLsb'_eq_self

/-- The four nibbles determine the opcode. -/
theorem eq_iff_fields (v w : Word) :
    v = w ↔ fieldC v = fieldC w ∧ fieldX v = fieldX w ∧ fieldY v = fieldY w ∧ fieldD v = fieldD w := by
  constructor
  · rintro rfl
    exact ⟨rfl, rfl, rfl, rfl⟩
  · rintro ⟨hc, hx, hy, hd⟩
    rw [← append_fields v, ← append_fields w, hc, hx, hy, hd]

/-! ### The fields of the bytes in memory (R51) -/

theorem fieldC_wordOfBytes (hi lo : Byte) : fieldC (wordOfBytes hi lo) = hi.extractLsb' 4 4 :=
  BitVec.extractLsb'_append_eq_of_le (by decide)

theorem fieldX_wordOfBytes (hi lo : Byte) : fieldX (wordOfBytes hi lo) = hi.extractLsb' 0 4 :=
  BitVec.extractLsb'_append_eq_of_le (by decide)

theorem fieldY_wordOfBytes (hi lo : Byte) : fieldY (wordOfBytes hi lo) = lo.extractLsb' 4 4 :=
  BitVec.extractLsb'_append_eq_of_add_le (by decide)

theorem fieldD_wordOfBytes (hi lo : Byte) : fieldD (wordOfBytes hi lo) = lo.extractLsb' 0 4 :=
  BitVec.extractLsb'_append_eq_of_add_le (by decide)

theorem fieldNNN_wordOfBytes (hi lo : Byte) :
    fieldNNN (wordOfBytes hi lo) = (hi.extractLsb' 0 4 ++ lo : BitVec 12) := by
  rw [fieldNNN_eq_fieldX_append_lowByte, fieldX_wordOfBytes, lowByte_wordOfBytes]

/-- Settles O4: every field is what an all-ones mask on its bits leaves, and a part of one of the two bytes. -/
theorem fieldsAreMasksAndShifts : Obligations.FieldsAreMasksAndShifts := by
  constructor
  · intro op
    have hd : fieldD op = ((op &&& 0x000F) >>> 0).setWidth 4 := extractLsb'_eq_mask_shift op 0x000F rfl
    have hnnn : fieldNNN op = ((op &&& 0x0FFF) >>> 0).setWidth 12 := extractLsb'_eq_mask_shift op 0x0FFF rfl
    rw [BitVec.ushiftRight_zero] at hd hnnn
    exact ⟨extractLsb'_eq_mask_shift op 0xF000 rfl, extractLsb'_eq_mask_shift op 0x0F00 rfl,
      extractLsb'_eq_mask_shift op 0x00F0 rfl, hd, hnnn, fieldNNN_eq_append op⟩
  · intro hi lo
    exact ⟨fieldC_wordOfBytes hi lo, fieldX_wordOfBytes hi lo, fieldY_wordOfBytes hi lo, fieldD_wordOfBytes hi lo,
      fieldNNN_wordOfBytes hi lo⟩

/-! ### The rows of the opcode map, nibble by nibble (R53) -/

theorem matchesWord_iff (r : OpcodeRow) (op : Word) : r.matchesWord op = true ↔ op &&& r.mask = r.pattern := by
  simp [OpcodeRow.matchesWord]

/-- A row is matched when each nibble matches under its nibble of the mask. -/
theorem matchesWord_iff_fields (r : OpcodeRow) (op : Word) :
    r.matchesWord op = true ↔
      fieldC op &&& fieldC r.mask = fieldC r.pattern ∧ fieldX op &&& fieldX r.mask = fieldX r.pattern ∧
      fieldY op &&& fieldY r.mask = fieldY r.pattern ∧ fieldD op &&& fieldD r.mask = fieldD r.pattern := by
  rw [matchesWord_iff, eq_iff_fields]
  simp only [fieldC, fieldX, fieldY, fieldD, BitVec.extractLsb'_and]

/-- A nibble of a mask that is all ones leaves the nibble of the opcode as it is. -/
theorem and_fullNibble (n : BitVec 4) : n &&& 15#4 = n := BitVec.and_allOnes

theorem haltRow_matchesWord_iff (op : Word) :
    haltRow.matchesWord op = true ↔ fieldC op = 0x0 ∧ fieldX op = 0x0 ∧ fieldY op = 0x0 ∧ fieldD op = 0x0 := by
  simpa [haltRow, fieldC, fieldX, fieldY, fieldD, and_fullNibble] using matchesWord_iff_fields haltRow op

theorem addRow_matchesWord_iff (op : Word) : addRow.matchesWord op = true ↔ fieldC op = 0x8 ∧ fieldD op = 0x4 := by
  simpa [addRow, fieldC, fieldX, fieldY, fieldD, and_fullNibble] using matchesWord_iff_fields addRow op

theorem retRow_matchesWord_iff (op : Word) :
    retRow.matchesWord op = true ↔ fieldC op = 0x0 ∧ fieldX op = 0x0 ∧ fieldY op = 0xE ∧ fieldD op = 0xE := by
  simpa [retRow, fieldC, fieldX, fieldY, fieldD, and_fullNibble] using matchesWord_iff_fields retRow op

theorem callRow_matchesWord_iff (op : Word) : callRow.matchesWord op = true ↔ fieldC op = 0x2 := by
  simpa [callRow, fieldC, fieldX, fieldY, fieldD, and_fullNibble] using matchesWord_iff_fields callRow op

/-- The opcode map as MatchesNoRow writes it out. -/
theorem matchesNoRow_iff (op : Word) : MatchesNoRow op ↔ opcodeTable.any (·.matchesWord op) = false := by
  simp [MatchesNoRow, opcodeTable, OpcodeRow.matchesWord, haltRow, addRow, retRow, callRow]

end Sys2Proof
end

section
/-! PROOFS. The decoder reads the opcode map (R53), and encoder and decoder are inverse to each other (R52, R53). -/

namespace Sys2Proof

variable {op : Word}

/-! ### What the decoder answers to a word of each row -/

theorem decodeWord_of_haltRow (h : haltRow.matchesWord op = true) : decodeWord op = .ok .halt :=
  if_pos ((haltRow_matchesWord_iff op).1 h)

theorem decodeWord_of_addRow (h : addRow.matchesWord op = true) :
    decodeWord op = .ok (.add (regOfField (fieldX op)) (regOfField (fieldY op))) := by
  obtain ⟨hc, hd⟩ := (addRow_matchesWord_iff op).1 h
  simp [decodeWord, hc, hd]

theorem decodeWord_of_retRow (h : retRow.matchesWord op = true) : decodeWord op = .ok .ret := by
  obtain ⟨hc, hx, hy, hd⟩ := (retRow_matchesWord_iff op).1 h
  simp [decodeWord, hc, hx, hy, hd]

theorem decodeWord_of_callRow (h : callRow.matchesWord op = true) : decodeWord op = .ok (.call (fieldNNN op)) := by
  have hc := (callRow_matchesWord_iff op).1 h
  simp [decodeWord, hc]

/-! ### Encoding and decoding are inverse to each other -/

theorem opcodeRow_mem (i : Instr) : opcodeRow i ∈ opcodeTable := by
  cases i <;> simp [opcodeRow, opcodeTable]

/-- An instruction's word matches the instruction's own row (R53). -/
theorem opcodeRow_matchesWord_encode (i : Instr) : (opcodeRow i).matchesWord (encode i) = true := by
  have hrow : Laws.EncodingFitsRow.Statement i := by
    cases i with
    | halt => exact Laws.EncodingFitsRow.halt
    | add x y => exact Laws.EncodingFitsRow.add x y
    | ret => exact Laws.EncodingFitsRow.ret
    | call nnn => exact Laws.EncodingFitsRow.call nnn
  exact (hrow _ (opcodeRow_mem i)).2 rfl

theorem fieldX_encode_add (x y : RegIndex) : fieldX (encode (.add x y)) = fieldOfReg x :=
  (BitVec.extractLsb'_append_eq_of_le (by decide)).trans
    ((BitVec.extractLsb'_append_eq_of_le (by decide)).trans BitVec.extractLsb'_append_eq_right)

theorem fieldY_encode_add (x y : RegIndex) : fieldY (encode (.add x y)) = fieldOfReg y :=
  (BitVec.extractLsb'_append_eq_of_le (by decide)).trans BitVec.extractLsb'_append_eq_right

theorem fieldNNN_encode_call (nnn : MemAddr) : fieldNNN (encode (.call nnn)) = nnn :=
  BitVec.extractLsb'_append_eq_right

/-- The decoder reads every instruction back from its word. -/
theorem decodeWord_encode (i : Instr) : decodeWord (encode i) = .ok i := by
  have hm := opcodeRow_matchesWord_encode i
  cases i with
  | halt => exact decodeWord_of_haltRow hm
  | add x y => simpa [fieldX_encode_add, fieldY_encode_add] using decodeWord_of_addRow hm
  | ret => exact decodeWord_of_retRow hm
  | call nnn => simpa [fieldNNN_encode_call] using decodeWord_of_callRow hm

theorem encode_injective : Function.Injective encode := fun i j h =>
  Except.ok.inj ((decodeWord_encode i).symm.trans ((congrArg decodeWord h).trans (decodeWord_encode j)))

/-- A word that decodes is the encoding of what it decodes to. -/
theorem encode_of_decodeWord {i : Instr} (h : decodeWord op = .ok i) : encode i = op := by
  rcases decodeWord_cases op with ⟨rfl, hd⟩ | ⟨hc, hdd, hd⟩ | ⟨rfl, hd⟩ | ⟨hc, hd⟩ | hd <;>
    rw [hd] at h <;> cases h
  · rfl
  · simpa [encode, hc, hdd] using append_fields op
  · rfl
  · simpa [encode, hc] using fieldC_append_fieldNNN op

/-- A word that decodes matches the row of the instruction it decodes to. -/
theorem opcodeRow_matchesWord_of_decodeWord {i : Instr} (h : decodeWord op = .ok i) :
    (opcodeRow i).matchesWord op = true := by
  rw [← encode_of_decodeWord h]
  exact opcodeRow_matchesWord_encode i

/-! ### Each answer of the decoder, as a match of a row (R53) -/

theorem decodeWord_eq_halt_iff : decodeWord op = .ok .halt ↔ haltRow.matchesWord op = true :=
  ⟨opcodeRow_matchesWord_of_decodeWord, decodeWord_of_haltRow⟩

theorem decodeWord_eq_add_iff (x y : RegIndex) :
    decodeWord op = .ok (.add x y) ↔
      addRow.matchesWord op = true ∧ x.val = (fieldX op).toNat ∧ y.val = (fieldY op).toNat := by
  constructor
  · intro h
    have hm : addRow.matchesWord op = true := opcodeRow_matchesWord_of_decodeWord h
    cases h.symm.trans (decodeWord_of_addRow hm)
    exact ⟨hm, rfl, rfl⟩
  · rintro ⟨hm, hx, hy⟩
    rw [decodeWord_of_addRow hm, show x = regOfField (fieldX op) from Fin.ext hx,
      show y = regOfField (fieldY op) from Fin.ext hy]

theorem decodeWord_eq_ret_iff : decodeWord op = .ok .ret ↔ retRow.matchesWord op = true :=
  ⟨opcodeRow_matchesWord_of_decodeWord, decodeWord_of_retRow⟩

theorem decodeWord_eq_call_iff (nnn : MemAddr) :
    decodeWord op = .ok (.call nnn) ↔ callRow.matchesWord op = true ∧ nnn = fieldNNN op := by
  constructor
  · intro h
    have hm : callRow.matchesWord op = true := opcodeRow_matchesWord_of_decodeWord h
    cases h.symm.trans (decodeWord_of_callRow hm)
    exact ⟨hm, rfl⟩
  · rintro ⟨hm, rfl⟩
    exact decodeWord_of_callRow hm

theorem isInstruction_iff : isInstruction op = true ↔ ∃ i, decodeWord op = .ok i := by
  unfold isInstruction
  cases decodeWord op <;> simp [Except.toOption]

/-- The instructions are the words that match some row of the opcode map (R53). -/
theorem isInstruction_eq_any (op : Word) : isInstruction op = opcodeTable.any (·.matchesWord op) := by
  rw [Bool.eq_iff_iff, isInstruction_iff, List.any_eq_true]
  constructor
  · rintro ⟨i, hi⟩
    exact ⟨opcodeRow i, opcodeRow_mem i, opcodeRow_matchesWord_of_decodeWord hi⟩
  · rintro ⟨r, hr, hm⟩
    simp only [opcodeTable, List.mem_cons, List.not_mem_nil, or_false] at hr
    rcases hr with rfl | rfl | rfl | rfl
    · exact ⟨_, decodeWord_of_haltRow hm⟩
    · exact ⟨_, decodeWord_of_addRow hm⟩
    · exact ⟨_, decodeWord_of_retRow hm⟩
    · exact ⟨_, decodeWord_of_callRow hm⟩

/-- The decoder rejects a word, by its name, exactly when it is no instruction (R56). -/
theorem decodeWord_eq_error_iff :
    decodeWord op = .error (.unimplementedOpcode op) ↔ isInstruction op = false := by
  rcases decodeWord_cases op with ⟨-, hd⟩ | ⟨-, -, hd⟩ | ⟨-, hd⟩ | ⟨-, hd⟩ | hd <;>
    simp [isInstruction, hd, Except.toOption]

end Sys2Proof
end

section
/-! PROOFS. The rows are disjoint (R54), and how many words each has (R53, R54). -/

namespace Sys2Proof

/-! ### Disjointness and order (R54) -/

/-- Where one word matches two rows, the two patterns agree on the bits that both masks fix. -/
theorem patterns_agree_of_matchesWord {r q : OpcodeRow} {op : Word} (hr : r.matchesWord op = true)
    (hq : q.matchesWord op = true) : r.pattern &&& q.mask = q.pattern &&& r.mask := by
  rw [matchesWord_iff] at hr hq
  rw [← hr, ← hq, BitVec.and_assoc, BitVec.and_assoc, BitVec.and_comm r.mask]

/-- No word matches both rows. -/
def OpcodeRow.Disjoint (r q : OpcodeRow) : Prop := ∀ op, ¬(r.matchesWord op = true ∧ q.matchesWord op = true)

/-- Any two rows of the opcode map differ on a bit that both fix. -/
theorem opcodeTable_pairwise_disjoint : opcodeTable.Pairwise OpcodeRow.Disjoint := by
  have hdiffer : opcodeTable.Pairwise fun r q => r.pattern &&& q.mask ≠ q.pattern &&& r.mask := by decide
  exact hdiffer.imp fun hne op ⟨hr, hq⟩ => hne (patterns_agree_of_matchesWord hr hq)

theorem opcodeTable_row_unique {r q : OpcodeRow} (hr : r ∈ opcodeTable) (hq : q ∈ opcodeTable) {op : Word}
    (hrm : r.matchesWord op = true) (hqm : q.matchesWord op = true) : r = q := by
  by_contra hne
  have hsymm : Std.Symm OpcodeRow.Disjoint := ⟨fun _ _ h op hop => h op hop.symm⟩
  exact opcodeTable_pairwise_disjoint.forall hr hq hne op ⟨hrm, hqm⟩

/-- A search finds the only element that it can find, wherever in the list it stands. -/
theorem find?_eq_some_of_unique {α : Type} {p : α → Bool} {l : List α} {a : α} (ha : a ∈ l) (hp : p a = true)
    (huniq : ∀ b ∈ l, p b = true → b = a) : l.find? p = some a := by
  obtain ⟨b, hb⟩ := Option.isSome_iff_exists.1 (List.find?_isSome.2 ⟨a, ha, hp⟩)
  rw [hb, huniq b (List.mem_of_find?_eq_some hb) (List.find?_some hb)]

/-- Where at most one row can match, the order in which the rows are tried makes no difference (R54). -/
theorem find?_opcodeTable_of_perm {rows : List OpcodeRow} (hperm : rows.Perm opcodeTable) (op : Word) :
    rows.find? (·.matchesWord op) = opcodeTable.find? (·.matchesWord op) := by
  cases hfind : opcodeTable.find? (·.matchesWord op) with
  | none =>
    rw [List.find?_eq_none] at hfind ⊢
    exact fun r hr => hfind r (hperm.mem_iff.1 hr)
  | some r =>
    have hr := List.mem_of_find?_eq_some hfind
    have hm := List.find?_some hfind
    exact find?_eq_some_of_unique (hperm.mem_iff.2 hr) hm fun q hq hqm =>
      opcodeTable_row_unique (hperm.mem_iff.1 hq) hr hqm hm

/-! ### Counting words -/

theorem fintypeCard_bitVec (n : Nat) : Fintype.card (BitVec n) = 2 ^ n :=
  FinEnum.card_eq_fintypeCard.symm.trans (FinEnum.card_bitVec n)

/-- A row has as many words as there are choices of operands, since encoding is injective and inverse to decoding. -/
theorem countWords_row {α : Type} [Fintype α] {r : OpcodeRow} (instr : α → Instr) (hinj : Function.Injective instr)
    (hrow : ∀ a, opcodeRow (instr a) = r)
    (hdec : ∀ op, r.matchesWord op = true → ∃ a, decodeWord op = .ok (instr a)) :
    countWords (r.matchesWord ·) = Fintype.card α := by
  have himage : (Finset.univ.filter fun op => r.matchesWord op = true) = Finset.univ.image (encode ∘ instr) := by
    ext op
    simp only [Finset.mem_filter, Finset.mem_univ, true_and, Finset.mem_image, Function.comp_apply]
    constructor
    · intro hm
      obtain ⟨a, ha⟩ := hdec op hm
      exact ⟨a, encode_of_decodeWord ha⟩
    · rintro ⟨a, rfl⟩
      exact hrow a ▸ opcodeRow_matchesWord_encode (instr a)
  rw [countWords, himage, Finset.card_image_of_injective _ (encode_injective.comp hinj), Finset.card_univ]

theorem countWords_haltRow : countWords (haltRow.matchesWord ·) = 1 :=
  countWords_row (fun _ : Unit => .halt) (Function.injective_of_subsingleton _) (fun _ => rfl)
    fun _ hm => ⟨(), decodeWord_of_haltRow hm⟩

theorem countWords_addRow : countWords (addRow.matchesWord ·) = 256 := by
  have hinj : Function.Injective fun xy : RegIndex × RegIndex => Instr.add xy.1 xy.2 :=
    fun _ _ h => Prod.ext (Instr.add.inj h).1 (Instr.add.inj h).2
  have hcount := countWords_row (r := addRow) _ hinj (fun _ => rfl) fun _ hm => ⟨(_, _), decodeWord_of_addRow hm⟩
  rw [hcount, Fintype.card_prod, Fintype.card_fin]

theorem countWords_retRow : countWords (retRow.matchesWord ·) = 1 :=
  countWords_row (fun _ : Unit => .ret) (Function.injective_of_subsingleton _) (fun _ => rfl)
    fun _ hm => ⟨(), decodeWord_of_retRow hm⟩

theorem countWords_callRow : countWords (callRow.matchesWord ·) = 4096 := by
  have hinj : Function.Injective Instr.call := fun _ _ => Instr.call.inj
  have hcount := countWords_row (r := callRow) _ hinj (fun _ => rfl) fun _ hm => ⟨_, decodeWord_of_callRow hm⟩
  rw [hcount, fintypeCard_bitVec]
  norm_num

theorem countWords_or {p q : Word → Bool} (h : ∀ op, ¬(p op = true ∧ q op = true)) :
    countWords (fun op => p op || q op) = countWords p + countWords q := by
  unfold countWords
  rw [← Finset.card_union_of_disjoint (Finset.disjoint_filter.2 fun op _ hp hq => h op ⟨hp, hq⟩),
    ← Finset.filter_or]
  simp only [Bool.or_eq_true]

/-- The words of disjoint rows add up. -/
theorem countWords_any {rows : List OpcodeRow} (h : rows.Pairwise OpcodeRow.Disjoint) :
    countWords (fun op => rows.any (·.matchesWord op)) = (rows.map fun r => countWords (r.matchesWord ·)).sum := by
  induction h with
  | nil => simp [countWords]
  | @cons r rows hr _ ih =>
    have hdisj : ∀ op, ¬(r.matchesWord op = true ∧ (rows.any (·.matchesWord op)) = true) := by
      rintro op ⟨hrm, hany⟩
      obtain ⟨q, hq, hqm⟩ := List.any_eq_true.1 hany
      exact hr q hq op ⟨hrm, hqm⟩
    rw [List.map_cons, List.sum_cons, ← ih, ← countWords_or hdisj]
    simp only [List.any_cons]

theorem countWords_add_countWords_not (p : Word → Bool) :
    countWords p + countWords (fun op => !p op) = 65536 := by
  have hcard : (Finset.univ : Finset Word).card = 65536 := by
    rw [Finset.card_univ, fintypeCard_bitVec]
    norm_num
  rw [← hcard, ← Finset.card_filter_add_card_filter_not (fun op => p op = true)]
  simp only [countWords, Bool.not_eq_true, Bool.not_eq_true']

/-- 1 + 256 + 1 + 4096 = 4354 opcodes are instructions (R54). -/
theorem countWords_isInstruction : countWords isInstruction = 4354 := by
  rw [funext isInstruction_eq_any, countWords_any opcodeTable_pairwise_disjoint]
  simp [opcodeTable, countWords_haltRow, countWords_addRow, countWords_retRow, countWords_callRow]

/-- 65536 − 4354 = 61182 opcodes are unimplemented (R54). -/
theorem countWords_not_isInstruction : countWords (fun op => !isInstruction op) = 61182 := by
  have hsum := countWords_add_countWords_not isInstruction
  rw [countWords_isInstruction] at hsum
  omega

/-- Settles O5: each answer of the decoder is the match of its row, and each row has as many words as its instruction
has choices of operands. -/
theorem opcodeMapDecides : Obligations.OpcodeMapDecides := by
  refine ⟨fun op => ⟨?_, fun x y => ?_, ?_, fun nnn => ?_, ?_⟩, countWords_haltRow, countWords_addRow,
    countWords_retRow, countWords_callRow, countWords_not_isInstruction⟩
  · exact decodeWord_eq_halt_iff.trans (matchesWord_iff haltRow op)
  · exact (decodeWord_eq_add_iff x y).trans (and_congr_left' (matchesWord_iff addRow op))
  · exact decodeWord_eq_ret_iff.trans (matchesWord_iff retRow op)
  · exact (decodeWord_eq_call_iff nnn).trans (and_congr_left' (matchesWord_iff callRow op))
  · rw [decodeWord_eq_error_iff, isInstruction_eq_any, matchesNoRow_iff]

/-- Settles O6: any two rows differ on a bit that both fix, so that at most one row matches a word and the words of the
rows add up. -/
theorem patternsAreDisjoint : Obligations.PatternsAreDisjoint :=
  ⟨opcodeTable_pairwise_disjoint, fun _ hperm op => find?_opcodeTable_of_perm hperm op, countWords_isInstruction,
    countWords_not_isInstruction⟩

end Sys2Proof
end

section
/-! PROOFS. The instruction cycle (spec/40_cycle_and_halt.md): the step of a running core that fetched a word, by what the
word decodes to, and where the cycle leaves IP. -/

namespace Sys2Proof.Machine

section CycleRules

variable {s t : State} {op : Word}

/-! ### The step of a running core that fetched a word (R70) -/

theorem step_of_fetch (hr : s.status = .running) (hf : fetch s = some op) : step s = runOpcode op s := by
  rw [step_of_running hr, cycle_of_fetch hf]

/-- The decoder rejects exactly the words that match no row (R56, R76). -/
theorem decodeWord_eq_error_iff_matchesNoRow :
    decodeWord op = .error (.unimplementedOpcode op) ↔ MatchesNoRow op := by
  rw [decodeWord_eq_error_iff, isInstruction_eq_any, matchesNoRow_iff]

/-! ### Where the cycle leaves IP (R72) -/

/-- A fetch is from an address where the advance cannot wrap (R71, R72). -/
theorem toNat_ip_add_two (hf : fetch s = some op) : (s.ip + 2).toNat = s.ip.toNat + 2 := by
  have hip : s.ip.toNat ≤ 4094 := ((fetch_eq_some_iff s op).1 hf).1
  exact BitVec.toNat_add_of_lt (show s.ip.toNat + 2 < 2 ^ 16 by omega)

/-- A meaning leaves IP where it found it, unless it is a CALL or a RET, which then goes on with the run (R75, R90, R100,
R101). -/
theorem exec_ip_cases {i : Instr} (h : exec i s = .next t) :
    t.ip = s.ip ∨ ((i = .ret ∨ ∃ nnn, i = .call nnn) ∧ t.status = s.status) := by
  rcases exec_cases h with ⟨-, rfl⟩ | ⟨x, y, -, rfl⟩ | ⟨-, -, rfl⟩ | ⟨ret, hi, -, -, rfl⟩ | ⟨nnn, -, -, rfl⟩ |
    ⟨nnn, hi, -, rfl⟩
  · exact .inl rfl
  · exact .inl rfl
  · exact .inl rfl
  · exact .inr ⟨.inl hi, rfl⟩
  · exact .inl rfl
  · exact .inr ⟨.inr ⟨nnn, hi⟩, rfl⟩

/-- The cycle leaves IP just past the word, unless the word is a CALL or a RET, which then goes on with the run. -/
theorem runOpcode_ip_cases (h : runOpcode op s = .next t) :
    t.ip = s.ip + 2 ∨ ((op = 0x00EE ∨ op &&& 0xF000 = 0x2000) ∧ t.status = s.status) := by
  cases hd : decodeWord op with
  | error r =>
    rw [runOpcode_of_error hd] at h
    cases h
    exact .inl rfl
  | ok i =>
    rw [runOpcode_of_ok hd] at h
    rcases exec_ip_cases h with hip | ⟨rfl | ⟨nnn, rfl⟩, hst⟩
    · exact .inl hip
    · exact .inr ⟨.inl (encode_of_decodeWord hd).symm, hst⟩
    · have hm : callRow.matchesWord op = true := opcodeRow_matchesWord_of_decodeWord hd
      exact .inr ⟨.inr ((matchesWord_iff callRow op).1 hm), hst⟩

/-- What a CALL with room on the stack saves is the address just past the CALL (R72, R100). -/
theorem entryAt_of_runOpcode_call (h : runOpcode op s = .next t) (hcall : op &&& 0xF000 = 0x2000)
    (hroom : s.sp.toNat < 16) : entryAt t s.sp.toNat = s.ip + 2 := by
  have hd := decodeWord_of_callRow ((matchesWord_iff callRow op).2 hcall)
  have hexec := execCall_of_room (s := advance s) hroom (fieldNNN op)
  rw [runOpcode_of_ok hd, exec, hexec] at h
  cases h
  have hentry := entryAt_pushReturn (s := advance s) hroom (s.ip + 2) s.sp.toNat
  rwa [advance_sp, if_pos rfl] at hentry

end CycleRules

/-! ### The obligations (R72, R75, R76) -/

/-- Settles O9: 0x0000 decodes to HALT, whose meaning sets STATUS alone. -/
theorem haltEndsTheRun : Obligations.HaltEndsTheRun := by
  refine ⟨rfl, fun s => ⟨execHalt_eq s, fun hr hf => ?_⟩⟩
  have hd : decodeWord 0x0000 = .ok .halt := decodeWord_encode .halt
  rw [step_of_fetch hr hf, runOpcode_of_ok hd]
  exact execHalt_eq (advance s)

/-- Settles O22: the decoder rejects the word, and the cycle raises the fault on the state whose IP it has advanced. -/
theorem unimplementedOpcodeFaults : Obligations.UnimplementedOpcodeFaults := by
  intro s op hr hf hno
  rw [step_of_fetch hr hf, runOpcode_of_error (decodeWord_eq_error_iff_matchesNoRow.2 hno)]
  rfl

/-- Settles O23: the advance does not wrap after a fetch, and dispatch starts from the advanced IP. -/
theorem advanceComesBeforeDispatch : Obligations.AdvanceComesBeforeDispatch := by
  intro s t op hr hf h
  rw [step_of_fetch hr hf] at h
  have hip : s.ip.toNat ≤ 4094 := ((fetch_eq_some_iff s op).1 hf).1
  rw [← toNat_ip_add_two hf]
  refine ⟨?_, fun hcall hret => ?_, fun hend => ?_, fun hcall hroom => ?_⟩
  · rw [toNat_ip_add_two hf]
    omega
  · rcases runOpcode_ip_cases h with hadv | ⟨hop | hop, -⟩
    · rw [hadv]
    · exact absurd hop hret
    · exact absurd hop hcall
  · rcases runOpcode_ip_cases h with hadv | ⟨-, hst⟩
    · rw [hadv]
    · exact absurd (hst.trans hr) hend
  · rw [entryAt_of_runOpcode_call h hcall hroom]

end Sys2Proof.Machine
end

section
/-! PROOFS. The addition (R91 of spec/41_alu.md): result and carry are the remainder and the quotient by 256 of the exact
sum, and ADD takes both from its two operands alone. -/

namespace Sys2Proof.Machine

/-! ### The exact sum and its two parts (R90, R91) -/

/-- Nine bits hold the sum of any two bytes. -/
theorem toNat_wideSum (a b : Byte) : (wideSum a b).toNat = a.toNat + b.toNat := by
  have ha := a.isLt
  have hb := b.isLt
  rw [wideSum, BitVec.toNat_add, BitVec.toNat_setWidth_of_le (by decide), BitVec.toNat_setWidth_of_le (by decide)]
  exact Nat.mod_eq_of_lt (by omega)

theorem wideSum_comm (a b : Byte) : wideSum a b = wideSum b a := BitVec.add_comm _ _

theorem aluSum_comm (a b : Byte) : aluSum a b = aluSum b a := by rw [aluSum, aluSum, wideSum_comm]

theorem aluCarry_comm (a b : Byte) : aluCarry a b = aluCarry b a := by rw [aluCarry, aluCarry, wideSum_comm]

theorem toNat_aluSum (a b : Byte) : (aluSum a b).toNat = (a.toNat + b.toNat) % 256 := by
  simp [aluSum, toNat_wideSum]

/-- Bit 8 of the exact sum is its quotient by 256: with 9 bits in all there is no bit above it. -/
theorem toNat_aluCarry (a b : Byte) : (aluCarry a b).toNat = (a.toNat + b.toNat) / 256 := by
  have ha := a.isLt
  have hb := b.isLt
  have hbit : (a.toNat + b.toNat) / 256 < 2 := by omega
  rw [aluCarry, BitVec.toNat_setWidth_of_le (by decide), BitVec.extractLsb'_toNat, toNat_wideSum,
    Nat.shiftRight_eq_div_pow]
  exact Nat.mod_eq_of_lt hbit

theorem aluCarry_eq_ite (a b : Byte) : aluCarry a b = if 256 ≤ a.toNat + b.toNat then 1 else 0 := by
  have ha := a.isLt
  have hb := b.isLt
  apply BitVec.eq_of_toNat_eq
  rw [toNat_aluCarry]
  split
  · change (a.toNat + b.toNat) / 256 = 1
    omega
  · change (a.toNat + b.toNat) / 256 = 0
    omega

theorem aluSum_add_aluCarry (a b : Byte) :
    (aluSum a b).toNat + 256 * (aluCarry a b).toNat = a.toNat + b.toNat := by
  rw [toNat_aluSum, toNat_aluCarry, Nat.mod_add_div]

/-! ### What a register holds after a write, and after ADD (R90) -/

theorem getElem_writeReg_self (s : State) (i : RegIndex) (b : Byte) : (writeReg s i b).v[i] = b :=
  Vector.getElem_set_self i.isLt

theorem getElem_writeReg_of_ne {i j : RegIndex} (h : i ≠ j) (s : State) (b : Byte) :
    (writeReg s i b).v[j] = s.v[j] :=
  Vector.getElem_set_ne i.isLt j.isLt (Fin.val_ne_of_ne h)

/-- Unless the flag register is the destination, ADD leaves the sum in its destination and the carry in the flag. -/
theorem exec_add_writes {x : RegIndex} (hx : x ≠ 15) (y : RegIndex) (s : State) :
    ∃ t, exec (.add x y) s = .next t ∧ t.v[x] = aluSum s.v[x] s.v[y] ∧ t.v[15] = aluCarry s.v[x] s.v[y] := by
  refine ⟨_, execAdd_eq x y s, ?_, getElem_writeReg_self _ 15 _⟩
  rw [getElem_writeReg_of_ne hx.symm, getElem_writeReg_self, readReg_eq, readReg_eq]

/-- Settles O17: sum and carry are remainder and quotient of the exact sum, and a register other than the flag holds
the same whatever was put into the flag. -/
theorem aluAddition : Obligations.AluAddition := by
  refine ⟨fun a b => ⟨toNat_aluSum a b, aluCarry_eq_ite a b, aluSum_add_aluCarry a b, aluSum_comm a b,
    aluCarry_comm a b⟩, fun x y s flag hx hy => ?_⟩
  obtain ⟨t, ht, htx, htf⟩ := exec_add_writes hx y s
  obtain ⟨u, hu, hux, huf⟩ := exec_add_writes hx y (writeReg s 15 flag)
  rw [getElem_writeReg_of_ne hx.symm, getElem_writeReg_of_ne hy.symm] at hux huf
  exact ⟨t, u, ht, hu, htx.trans hux.symm, htf.trans huf.symm⟩

end Sys2Proof.Machine
end

section
/-! PROOFS. The call stack (spec/42_call_stack.md): what CALL and RET do where the stack allows them, said of the meaning;
the cycle then does the same from the advanced state. -/

namespace Sys2Proof.Machine

/-- The step of a running core that fetched an instruction's word is the instruction's meaning, from the advanced state
(R70, R72, R74). -/
theorem step_of_fetch_encode {s : State} {i : Instr} (hr : s.status = .running) (hf : fetch s = some (encode i)) :
    step s = exec i (advance s) := by
  rw [step_of_fetch hr hf, runOpcode_of_ok (decodeWord_encode i)]

/-! ### CALL (R100) -/

/-- The word of CALL nnn is 0x2nnn (R53, R100). -/
theorem encode_call_eq_ofNat (nnn : MemAddr) : encode (.call nnn) = BitVec.ofNat 16 (0x2000 + nnn.toNat) := by
  have hlt : nnn.toNat < 2 ^ 12 := nnn.isLt
  apply BitVec.eq_of_toNat_eq
  rw [BitVec.toNat_ofNat, Nat.mod_eq_of_lt (by omega)]
  calc (encode (.call nnn)).toNat
    _ = 2 <<< 12 ||| nnn.toNat := BitVec.toNat_append 0x2#4 nnn
    _ = 2 <<< 12 + nnn.toNat := (Nat.shiftLeft_add_eq_or_of_lt hlt 2).symm
    _ = 0x2000 + nnn.toNat := rfl

/-- Where the stack has room the push writes the entry at SP, an index that exists (R17, R100). -/
theorem pushReturn_of_room {s : State} (h : s.sp.toNat < 16) (ret : Word) :
    pushReturn s ret = { s with stack := s.stack.set s.sp.toNat ret, sp := s.sp + 1 } := by
  have hset : s.stack.setIfInBounds s.sp.toNat ret = s.stack.set s.sp.toNat ret :=
    Vector.ext fun k hk => by rw [Vector.getElem_setIfInBounds, Vector.getElem_set]
  rw [pushReturn, hset]

/-- CALL with room on the stack saves IP and goes on at its operand (R100). -/
theorem exec_call_of_room {s : State} (h : s.sp.toNat < 16) (nnn : MemAddr) :
    exec (.call nnn) s = .next { s with
      stack := s.stack.set s.sp.toNat s.ip, sp := s.sp + 1, ip := BitVec.ofNat 16 nnn.toNat } := by
  have haddr : addressOperand nnn = BitVec.ofNat 16 nnn.toNat := (BitVec.ofNat_toNat 16 nnn).symm
  rw [exec, execCall_of_room h, pushReturn_of_room h, haddr]
  rfl

/-- Where the stack has no room CALL enters FAULTED before any write (R100). -/
theorem exec_call_of_full {s : State} (h : 16 ≤ s.sp.toNat) (nnn : MemAddr) :
    ∃ op a, exec (.call nnn) s = .next { s with
      status := .faulted, faultKind := some .stackOverflow, faultOpcode := op, faultIp := a } :=
  ⟨_, _, execCall_of_full h nnn⟩

/-- Settles O11: the meaning pushes or faults as SP stands, and the cycle is the meaning from the advanced state. -/
theorem callPushesReturnAddress : Obligations.CallPushesReturnAddress := by
  refine fun nnn s => ⟨encode_call_eq_ofNat nnn, fun hroom => exec_call_of_room hroom nnn,
    fun hfull => exec_call_of_full hfull nnn, fun hr hf => ?_⟩
  rw [step_of_fetch_encode hr hf]
  exact ⟨fun hroom => exec_call_of_room (s := advance s) hroom nnn,
    fun hfull => exec_call_of_full (s := advance s) hfull nnn⟩

/-! ### RET (R101) -/

/-- On an empty stack RET enters FAULTED before any write (R101). -/
theorem exec_ret_of_empty {s : State} (h : s.sp = 0) :
    ∃ op a, exec .ret s = .next { s with
      status := .faulted, faultKind := some .stackUnderflow, faultOpcode := op, faultIp := a } :=
  ⟨_, _, execRet_of_empty h⟩

/-- With 1 to 16 entries pushed there is an entry at SP - 1, and it goes to IP (R101). -/
theorem exec_ret_of_entry {s : State} (h : 0 < s.sp.toNat ∧ s.sp.toNat ≤ 16) :
    exec .ret s = .next { s with sp := s.sp - 1, ip := s.stack[s.sp.toNat - 1] } := by
  obtain ⟨hpos, hle⟩ := h
  have hne : s.sp ≠ 0 := BitVec.toNat_ne_iff_ne.1 (Nat.ne_of_gt hpos)
  exact execRet_of_entry hne (topReturn_eq_some hpos hle)

/-- Settles O12: the meaning pops or faults as SP stands, and the cycle is the meaning from the advanced state, which holds
the same stack. -/
theorem retPopsReturnAddress : Obligations.RetPopsReturnAddress := by
  refine ⟨rfl, fun s => ⟨exec_ret_of_empty, exec_ret_of_entry, fun hr hf => ?_⟩⟩
  rw [step_of_fetch_encode (i := .ret) hr hf]
  exact ⟨exec_ret_of_empty (s := advance s), exec_ret_of_entry (s := advance s)⟩

end Sys2Proof.Machine
end

section
/-! PROOFS. The host interface (spec/43_host_interface.md): what each operation answers in IDLE, and the state that a
session of LOADs, REG_WRITEs and REG_READs after CREATE hands to RUN. -/

namespace Sys2Proof.Machine

/-! ### The operations that IDLE accepts (R111, R112, R114, R116) -/

/-- LOAD within bounds, in IDLE, is a MemWrite (R112). -/
theorem hostStep_load {s : State} {a : MemAddr} {w : Word} {m : Memory} (hs : s.status = .idle)
    (hw : memWrite16 s.mem a.toNat w = some m) : hostStep (.load a w) s = (.accepted, setMem s m) := by
  have ha : a.toNat ≤ 4094 := (memWrite16_isSome_iff s.mem a.toNat w).1 (by simp [hw])
  have hacc : hostAccepts (.load a w) s = true := by
    simp only [hostAccepts, hs, beq_self_eq_true, Bool.true_and, decide_eq_true_eq]
    exact Nat.add_one_lt_add_one_iff.2 (Nat.lt_add_one_of_le ha)
  simp only [hostStep_of_accepted hacc, hostValue, hostEffect, hostLoad, hw]

theorem hostStep_regWrite {s : State} (hs : s.status = .idle) (i : RegIndex) (b : Byte) :
    hostStep (.regWrite i b) s = (.accepted, writeReg s i b) :=
  hostStep_of_accepted (by rw [hostAccepts, hs]; rfl)

theorem hostStep_run {s : State} (hs : s.status = .idle) : hostStep .run s = (.accepted, setStatus s .running) :=
  hostStep_of_accepted (by rw [hostAccepts, hs]; rfl)

/-- Settles O34: the LOAD is a MemWrite, which is defined up to address 4094 and stores the two bytes alone. -/
theorem loadWritesTwoCells : Obligations.LoadWritesTwoCells := by
  intro s a w hwf hs ha
  obtain ⟨m, hw⟩ := Option.isSome_iff_exists.1 ((memWrite16_isSome_iff s.mem a.toNat w).2 ha)
  have hcells := memByte_memWrite16 hwf hw
  refine ⟨setMem s m, hostStep_load hs hw, rfl, ?_, ?_, fun b hb hb' => ?_⟩
  · rw [setMem_mem, hcells, if_neg (Nat.ne_add_one _), if_pos rfl]
  · rw [setMem_mem, hcells, if_pos rfl]
  · rw [setMem_mem, hcells, if_neg hb', if_neg hb]

/-- Settles O36: REG_WRITE, accepted in IDLE, is the register write. -/
theorem regWriteSetsRegister : Obligations.RegWriteSetsRegister :=
  fun _ i b hs => hostStep_regWrite hs i b

/-! ### What the host hands to RUN (R116) -/

/-- The state after reset but for its registers and its memory, the two pieces of state that the host can set. -/
def preparedState (v : Vector Byte 16) (m : Memory) : State := { State.reset with v := v, mem := m }

/-- An operation that neither resets nor starts the core keeps such a state such a state (R112, R114, R115). -/
theorem hostStep_preparedState {op : HostOp} (hcreate : op ≠ .create) (hrun : op ≠ .run) (v : Vector Byte 16)
    (m : Memory) : ∃ v' m', (hostStep op (preparedState v m)).2 = preparedState v' m' := by
  rcases hostStep_cases op (preparedState v m) with hsame | ⟨hop, -⟩ | ⟨_, _, m', -, -, -, hload⟩ |
    ⟨i, b, -, -, hwrite⟩ | ⟨hop, -, -⟩
  · exact ⟨v, m, hsame⟩
  · exact absurd hop hcreate
  · exact ⟨v, m', hload⟩
  · exact ⟨v.set i b, m, hwrite⟩
  · exact absurd hop hrun

theorem hostSession_preparedState {ops : List HostOp} (hops : ∀ op ∈ ops, op ≠ .create ∧ op ≠ .run)
    (v : Vector Byte 16) (m : Memory) : ∃ v' m', hostSession ops (preparedState v m) = preparedState v' m' := by
  induction ops generalizing v m with
  | nil => exact ⟨v, m, rfl⟩
  | cons op ops ih =>
    obtain ⟨⟨hcreate, hrun⟩, hrest⟩ := List.forall_mem_cons.1 hops
    obtain ⟨v', m', hstep⟩ := hostStep_preparedState hcreate hrun v m
    rw [hostSession, hstep]
    exact ih hrest v' m'

/-- CREATE prepares the state, and the session keeps it prepared. -/
theorem hostSession_create_cons {ops : List HostOp} (hops : ∀ op ∈ ops, op ≠ .create ∧ op ≠ .run) (s : State) :
    ∃ v m, hostSession (.create :: ops) s = preparedState v m :=
  hostSession_preparedState hops State.reset.v State.reset.mem

theorem hostSession_append (ops ops' : List HostOp) (s : State) :
    hostSession (ops ++ ops') s = hostSession ops' (hostSession ops s) := by
  induction ops generalizing s with
  | nil => rfl
  | cons op ops ih => exact ih (hostStep op s).2

theorem entryAt_reset (k : Nat) : entryAt State.reset k = 0 := by
  by_cases hk : k < 16
  · rw [entryAt_of_lt _ hk]
    exact Vector.getElem_replicate hk
  · exact entryAt_of_ge _ (Nat.not_lt.1 hk)

/-- Settles O38: RUN sets STATUS alone, and finds the state after reset but for registers and memory. -/
theorem runStartsAtZero : Obligations.RunStartsAtZero := by
  refine ⟨fun s hs => hostStep_run hs, fun s t ops hops ht => ?_⟩
  obtain ⟨v, m, hu⟩ := hostSession_create_cons hops s
  have htrun : t = setStatus (preparedState v m) .running := by
    rw [ht, hostSession_append, hu, hostSession, hostStep_run rfl]
    rfl
  rw [hu, htrun]
  exact ⟨rfl, rfl, rfl, entryAt_reset, rfl, rfl, rfl⟩

end Sys2Proof.Machine
end

section
/-! PROOFS. Precise faults (R135 of spec/60_exceptions.md): the step into FAULTED is the entry of a fault and nothing more,
made from the state as it was for a fault raised at the fetch, and from the state whose IP is advanced for one raised at
dispatch. -/

namespace Sys2Proof.Machine

/-- An instruction that takes the core into FAULTED does nothing but enter a fault of dispatch, for the opcode that it is
(R100, R101). -/
theorem exec_of_faulted {i : Instr} {s t : State} (h : exec i s = .next t) (hs : s.status ≠ .faulted)
    (ht : t.status = .faulted) :
    ∃ k, k ≠ .fetchOutOfBounds ∧ t = faultEntry k (s.ip - 2) (encode i) s := by
  rcases exec_cases h with ⟨-, rfl⟩ | ⟨x, y, -, rfl⟩ | ⟨rfl, -, rfl⟩ | ⟨ret, -, -, -, rfl⟩ | ⟨nnn, rfl, -, rfl⟩ |
    ⟨nnn, -, -, rfl⟩
  · cases ht
  · exact absurd ht hs
  · exact ⟨.stackUnderflow, by decide, rfl⟩
  · exact absurd ht hs
  · exact ⟨.stackOverflow, by decide, rfl⟩
  · exact absurd ht hs

/-- Everything a running core's step into FAULTED can be (R71, R76, R135). -/
theorem step_faulted_cases {s t : State} (hr : s.status = .running) (h : step s = .next t)
    (ht : t.status = .faulted) :
    t = faultEntry .fetchOutOfBounds s.ip 0 s ∨
    ∃ k op, k ≠ .fetchOutOfBounds ∧ fetch s = some op ∧ t = faultEntry k s.ip op (advance s) := by
  rcases step_cases h with ⟨hnr, -⟩ | ⟨-, -, hfault⟩ | ⟨op, -, hf, -, hfault⟩ | ⟨op, i, -, hf, hd, hexec⟩
  · exact absurd hr hnr
  · exact .inl hfault
  · exact .inr ⟨.unimplementedOpcode, op, by decide, hf, hfault⟩
  · have hs : (advance s).status ≠ .faulted := by simp [hr]
    obtain ⟨k, hk, hfault⟩ := exec_of_faulted hexec hs ht
    rw [encode_of_decodeWord hd, advance_ip, BitVec.add_sub_cancel] at hfault
    exact .inr ⟨k, op, hk, hf, hfault⟩

/-- Settles O28: a fault entry writes STATUS and the fault record alone, and the advance before it writes IP alone. -/
theorem faultsArePrecise : Obligations.FaultsArePrecise := by
  intro s t hr h ht
  rcases step_faulted_cases hr h ht with rfl | ⟨k, op, hk, -, rfl⟩
  · exact ⟨rfl, rfl, rfl, rfl, fun _ => rfl, fun hne => absurd rfl hne⟩
  · exact ⟨rfl, rfl, rfl, rfl, fun heq => absurd (Option.some.inj heq) hk, fun _ => rfl⟩

end Sys2Proof.Machine
end

section
/-! PROOFS. The decoder on a byte stream (R50, R30): the two bytes at its head are the word, the rest is left over. -/

namespace Sys2Proof

theorem decodeBytes_eq_ok_iff (hi lo : Byte) (tail : List Byte) (i : Instr) (rest : List Byte) :
    decodeBytes (hi :: lo :: tail) = .ok (i, rest) ↔ decodeWord (wordOfBytes hi lo) = .ok i ∧ tail = rest := by
  cases hd : decodeWord (wordOfBytes hi lo) <;> simp [decodeBytes, hd]

theorem encodeBytes_wordOfBytes {i : Instr} {hi lo : Byte} (h : encode i = wordOfBytes hi lo) :
    encodeBytes i = [hi, lo] := by
  rw [encodeBytes, h, highByte_wordOfBytes, lowByte_wordOfBytes]

/-- Settles O2: every word matches the row of its instruction, and its two bytes are put together again to that word. -/
theorem decodeOfEncodeIsInstruction : Obligations.DecodeOfEncodeIsInstruction := by
  refine fun i => ⟨decodeWord_encode i, fun rest => (decodeBytes_eq_ok_iff _ _ rest i rest).2 ⟨?_, rfl⟩⟩
  rw [wordOfBytes_high_low, decodeWord_encode]

/-- Settles O3: a word determines its instruction's fields, which are all of the word, and a stream that decodes has two
bytes at its head. -/
theorem encodeOfDecodeIsWord : Obligations.EncodeOfDecodeIsWord := by
  refine ⟨fun op i => encode_of_decodeWord, fun bytes i rest h => ?_⟩
  match bytes with
  | [] | [_] => cases h
  | hi :: lo :: tail =>
    obtain ⟨hd, rfl⟩ := (decodeBytes_eq_ok_iff hi lo tail i rest).1 h
    rw [encodeBytes_wordOfBytes (encode_of_decodeWord hd)]
    rfl

end Sys2Proof
end

section
/-! PROOFS. The rules of a step: the seven ways in which a step can answer a next state, each with its premises and the
state it answers. They are what `step` computes (`step_eq_next_iff`), with the case splits of the decoder and of the
meanings done once; the proofs about steps that follow go rule by rule. -/

namespace Sys2Proof.Machine

/-- When a running core that fetched `op` raises a fault of this kind at dispatch (R76, R100, R101, R130). -/
def RaisedAtDispatch (s : State) (op : Word) : FaultKind → Prop
  | .stackOverflow => fieldC op = 0x2 ∧ 16 ≤ s.sp.toNat
  | .stackUnderflow => op = 0x00EE ∧ s.sp = 0
  | .unimplementedOpcode => decodeWord op = .error (.unimplementedOpcode op)
  | .fetchOutOfBounds => False

/-- The rules of a step of the core, by their outcome. -/
inductive StepRule (s : State) : State → Prop where
  /-- Outside RUNNING nothing happens (log entry 1). -/
  | idle (hs : s.status ≠ .running) : StepRule s s
  /-- R71. -/
  | fetchFault (hr : s.status = .running) (hip : 4094 < s.ip.toNat) :
      StepRule s (faultEntry .fetchOutOfBounds s.ip 0 s)
  /-- R76, and the faulting cases of R100 and R101. -/
  | dispatchFault {op : Word} {k : FaultKind} (hr : s.status = .running) (hf : fetch s = some op)
      (hk : RaisedAtDispatch s op k) : StepRule s (faultEntry k s.ip op (advance s))
  /-- R75. -/
  | halt (hr : s.status = .running) (hf : fetch s = some 0x0000) : StepRule s (setStatus (advance s) .halted)
  /-- R90. -/
  | add {x y : RegIndex} (hr : s.status = .running) (hf : fetch s = some (encode (.add x y))) :
      StepRule s (writeReg (writeReg (advance s) x (aluSum s.v[x] s.v[y])) 15 (aluCarry s.v[x] s.v[y]))
  /-- R101. -/
  | pop {ret : Word} (hr : s.status = .running) (hf : fetch s = some 0x00EE) (hsp : s.sp ≠ 0)
      (htop : topReturn s = some ret) : StepRule s (setIp (popReturn (advance s)) ret)
  /-- R100. -/
  | push {op : Word} (hr : s.status = .running) (hf : fetch s = some op) (hcall : fieldC op = 0x2)
      (hroom : s.sp.toNat < 16) :
      StepRule s (setIp (pushReturn (advance s) (s.ip + 2)) (addressOperand (fieldNNN op)))

section

variable {s t : State} {op : Word}

theorem fieldC_eq_two_iff_mask : fieldC op = 0x2 ↔ op &&& 0xF000 = 0x2000 :=
  (callRow_matchesWord_iff op).symm.trans (matchesWord_iff callRow op)

theorem decodeWord_of_fieldC_eq_two (h : fieldC op = 0x2) : decodeWord op = .ok (.call (fieldNNN op)) :=
  decodeWord_of_callRow ((callRow_matchesWord_iff op).2 h)

theorem fieldC_encode_call (nnn : MemAddr) : fieldC (encode (.call nnn)) = 0x2 :=
  (callRow_matchesWord_iff _).1 (opcodeRow_matchesWord_encode (.call nnn))

/-- A meaning that answers from the advanced state follows the rule of its instruction. -/
theorem stepRule_of_exec {i : Instr} (hr : s.status = .running) (hf : fetch s = some op) (hd : decodeWord op = .ok i)
    (h : exec i (advance s) = .next t) : StepRule s t := by
  obtain rfl : encode i = op := encode_of_decodeWord hd
  have hback : (advance s).ip - 2 = s.ip := BitVec.add_sub_cancel _ _
  rcases exec_cases h with ⟨rfl, rfl⟩ | ⟨x, y, rfl, rfl⟩ | ⟨rfl, hsp, rfl⟩ | ⟨ret, rfl, hsp, htop, rfl⟩ |
    ⟨nnn, rfl, hfull, rfl⟩ | ⟨nnn, rfl, hroom, rfl⟩
  · exact .halt hr hf
  · exact .add hr hf
  · rw [hback]
    exact .dispatchFault (k := .stackUnderflow) hr hf ⟨rfl, hsp⟩
  · exact .pop hr hf hsp htop
  · rw [hback]
    exact .dispatchFault (k := .stackOverflow) hr hf ⟨fieldC_encode_call nnn, hfull⟩
  · have hrule := StepRule.push hr hf (fieldC_encode_call nnn) hroom
    rwa [fieldNNN_encode_call] at hrule

theorem stepRule_of_step (h : step s = .next t) : StepRule s t := by
  rcases step_cases h with ⟨hs, rfl⟩ | ⟨hr, hip, rfl⟩ | ⟨op, hr, hf, hd, rfl⟩ | ⟨op, i, hr, hf, hd, hexec⟩
  · exact .idle hs
  · exact .fetchFault hr hip
  · exact .dispatchFault (k := .unimplementedOpcode) hr hf hd
  · exact stepRule_of_exec hr hf hd hexec

/-- A fault of dispatch is entered with the word fetched and the IP it was fetched from. -/
theorem step_of_raisedAtDispatch {k : FaultKind} (hr : s.status = .running) (hf : fetch s = some op)
    (hk : RaisedAtDispatch s op k) : step s = .next (faultEntry k s.ip op (advance s)) := by
  have hback : (advance s).ip - 2 = s.ip := BitVec.add_sub_cancel _ _
  rw [step_of_fetch hr hf]
  cases k with
  | stackOverflow =>
    obtain ⟨hc, hfull⟩ := hk
    have hd := decodeWord_of_fieldC_eq_two hc
    rw [runOpcode_of_ok hd, exec, execCall_of_full (s := advance s) hfull, hback, encode_of_decodeWord hd]
  | stackUnderflow =>
    obtain ⟨rfl, hsp⟩ := hk
    have hd : decodeWord 0x00EE = .ok .ret := decodeWord_encode .ret
    rw [runOpcode_of_ok hd, exec, execRet_of_empty (s := advance s) hsp, hback]
  | unimplementedOpcode => exact runOpcode_of_error hk s
  | fetchOutOfBounds => exact hk.elim

theorem step_of_stepRule (h : StepRule s t) : step s = .next t := by
  cases h with
  | idle hs => exact step_of_not_running hs
  | fetchFault hr hip => rw [step_of_running hr, cycle_of_noFetch ((fetch_eq_none_iff s).2 hip)]
  | dispatchFault hr hf hk => exact step_of_raisedAtDispatch hr hf hk
  | halt hr hf => exact step_of_fetch_encode (i := .halt) hr hf
  | add hr hf => exact step_of_fetch_encode hr hf
  | pop hr hf hsp htop => exact (step_of_fetch_encode (i := .ret) hr hf).trans (execRet_of_entry hsp htop)
  | push hr hf hcall hroom =>
    rw [step_of_fetch hr hf, runOpcode_of_ok (decodeWord_of_fieldC_eq_two hcall)]
    exact execCall_of_room (s := advance s) hroom _

/-- The rules are the step. -/
theorem step_eq_next_iff : step s = .next t ↔ StepRule s t := ⟨stepRule_of_step, step_of_stepRule⟩

/-- With SP in its range some rule applies: RET finds an entry to pop (R78, R18). -/
theorem exists_step (hsp : s.sp.toNat ≤ 16) : ∃ t, step s = .next t := by
  simp only [step_eq_next_iff]
  by_cases hr : s.status = .running
  · cases hf : fetch s with
    | none => exact ⟨_, .fetchFault hr ((fetch_eq_none_iff s).1 hf)⟩
    | some op =>
      rcases decodeWord_cases op with ⟨rfl, -⟩ | ⟨-, -, hd⟩ | ⟨rfl, -⟩ | ⟨hc, -⟩ | hd
      · exact ⟨_, .halt hr hf⟩
      · exact ⟨_, .add hr (by rw [hf, encode_of_decodeWord hd])⟩
      · by_cases h0 : s.sp = 0
        · exact ⟨_, .dispatchFault (k := .stackUnderflow) hr hf ⟨rfl, h0⟩⟩
        · have hpos : 0 < s.sp.toNat := Nat.pos_of_ne_zero (BitVec.toNat_ne_iff_ne.2 h0)
          exact ⟨_, .pop hr hf h0 (topReturn_eq_some hpos hsp)⟩
      · by_cases hfull : 16 ≤ s.sp.toNat
        · exact ⟨_, .dispatchFault (k := .stackOverflow) hr hf ⟨hc, hfull⟩⟩
        · exact ⟨_, .push hr hf hc (Nat.not_le.1 hfull)⟩
      · exact ⟨_, .dispatchFault (k := .unimplementedOpcode) hr hf hd⟩
  · exact ⟨_, .idle hr⟩

/-- No rule writes memory (R36). -/
theorem step_mem (h : step s = .next t) : t.mem = s.mem := by
  cases stepRule_of_step h <;> rfl

end

end Sys2Proof.Machine
end

section
/-! PROOFS. Runs: memory stands still (R36, R43), the path ignores the registers (R104), and the entry that a CALL
pushed is the address the matching RET resumes at (R102). -/

namespace Sys2Proof.Machine

section

variable {s t : State}

/-! ### Memory and registers over a run -/

theorem stepN_mem {n : Nat} (h : stepN n s = .next t) : t.mem = s.mem := by
  induction n generalizing s with
  | zero => cases h; rfl
  | succ n ih =>
    obtain ⟨u, hu, hn⟩ := (stepN_succ_iff n s t).1 h
    exact (ih hn).trans (step_mem hu)

/-- No rule has a premise about a register, and what a rule leaves outside the registers does not come from one. -/
theorem step_with_registers (h : step s = .next t) (w : Vector Byte 16) :
    ∃ w', step { s with v := w } = .next { t with v := w' } := by
  simp only [step_eq_next_iff]
  cases stepRule_of_step h with
  | idle hs => exact ⟨_, .idle hs⟩
  | fetchFault hr hip => exact ⟨_, .fetchFault hr hip⟩
  | dispatchFault hr hf hk => exact ⟨_, .dispatchFault (s := { s with v := w }) hr hf hk⟩
  | halt hr hf => exact ⟨_, .halt (s := { s with v := w }) hr hf⟩
  | add hr hf => exact ⟨_, .add (s := { s with v := w }) hr hf⟩
  | pop hr hf hsp htop => exact ⟨_, .pop (s := { s with v := w }) hr hf hsp htop⟩
  | push hr hf hcall hroom => exact ⟨_, .push (s := { s with v := w }) hr hf hcall hroom⟩

/-! ### The call stack over a step (R100, R101) -/

theorem toNat_sp_add_one (h : s.sp.toNat < 16) : (s.sp + 1).toNat = s.sp.toNat + 1 :=
  BitVec.toNat_add_of_lt (show s.sp.toNat + 1 < 2 ^ 5 by omega)

theorem toNat_sp_sub_one (h : s.sp ≠ 0) : (s.sp - 1).toNat = s.sp.toNat - 1 := by
  have hpos : 0 < s.sp.toNat := Nat.pos_of_ne_zero (BitVec.toNat_ne_iff_ne.2 h)
  exact BitVec.toNat_sub_of_le (BitVec.le_def.2 hpos)

/-- The only entry a step writes is the one at SP, which is not live (R100, R102). -/
theorem entryAt_step_of_ne (h : step s = .next t) {k : Nat} (hk : k ≠ s.sp.toNat) : entryAt t k = entryAt s k := by
  cases stepRule_of_step h with
  | push hr hf hcall hroom =>
    have hentry := entryAt_pushReturn (s := advance s) hroom (s.ip + 2) k
    exact hentry.trans (if_neg hk)
  | idle | fetchFault | dispatchFault | halt | add | pop => rfl

/-- A step that lowers SP is a RET: it pops one entry and resumes at it (R101). -/
theorem step_resumes_of_sp_lt (h : step s = .next t) (hlt : t.sp.toNat < s.sp.toNat) :
    t.ip = entryAt s t.sp.toNat := by
  cases stepRule_of_step h with
  | pop hr hf hsp htop =>
    have hret := topReturn_eq_entryAt htop
    rwa [← toNat_sp_sub_one hsp] at hret
  | push hr hf hcall hroom =>
    have hgt : s.sp.toNat + 1 < s.sp.toNat := toNat_sp_add_one hroom ▸ hlt
    omega
  | idle | fetchFault | dispatchFault | halt | add => exact absurd hlt (Nat.lt_irrefl _)

/-- An entry below SP keeps its value for as long as SP stays above it (R102). -/
theorem entryAt_stepN_of_live {k : Nat} {a : Word} {n : Nat} (hfirst : ∀ u, step s = .next u → entryAt u k = a)
    (hlive : ∀ m u, m ≤ n → stepN (m + 1) s = .next u → k < u.sp.toNat) (h : stepN (n + 1) s = .next t) :
    entryAt t k = a := by
  induction n generalizing t with
  | zero =>
    obtain ⟨u, hu, hut⟩ := (stepN_succ_iff 0 s t).1 h
    cases hut
    exact hfirst _ hu
  | succ n ih =>
    obtain ⟨u, hu, hut⟩ := (stepN_succ_last_iff (n + 1) s t).1 h
    have hku : k < u.sp.toNat := hlive n u (Nat.le_succ n) hu
    rw [entryAt_step_of_ne hut (Nat.ne_of_lt hku)]
    exact ih (fun m w hm => hlive m w (Nat.le_succ_of_le hm)) hu

end

/-- Settles O44: the entry at the old SP is live for the whole run, and the step that lowers SP to it pops it. -/
theorem returnResumesAfterCall : Obligations.ReturnResumesAfterCall := by
  intro n s t op hr hf hcall hroom h hlive
  have hpushed : ∀ u, step s = .next u → entryAt u s.sp.toNat = s.ip + 2 := fun u hu =>
    entryAt_of_runOpcode_call (step_of_fetch hr hf ▸ hu) hcall hroom
  have hentry : entryAt t s.sp.toNat = s.ip + 2 := entryAt_stepN_of_live hpushed hlive h
  rw [← toNat_ip_add_two hf]
  refine ⟨by rw [hentry], fun u hu hsp => ?_⟩
  have hlt : u.sp.toNat < t.sp.toNat := hsp ▸ hlive n t (Nat.le_refl n) h
  rw [step_resumes_of_sp_lt hu hlt, hsp, hentry]

/-- Settles O45, by induction on the number of steps. -/
theorem pathIgnoresRegisters : Obligations.PathIgnoresRegisters := by
  intro n
  induction n with
  | zero =>
    intro s t w h
    cases h
    exact ⟨w, rfl⟩
  | succ n ih =>
    intro s t w h
    obtain ⟨u, hu, hn⟩ := (stepN_succ_iff n s t).1 h
    obtain ⟨w₁, hw₁⟩ := step_with_registers hu w
    obtain ⟨w₂, hw₂⟩ := ih u t w₁ hn
    exact ⟨w₂, (stepN_succ_iff n _ _).2 ⟨_, hw₁, hw₂⟩⟩

/-- Settles O29: no step of the run writes memory. -/
theorem memoryConstantDuringRun : Obligations.MemoryConstantDuringRun := fun _ _ _ => stepN_mem

end Sys2Proof.Machine
end

section
/-! PROOFS. The invariant (R14, R18, R21, R75, R102, R130): it holds at reset, and every step of the core and every host
operation keeps it, so it holds in every reachable state, where the step therefore answers. -/

namespace Sys2Proof.Machine

/-- The part of the invariant that speaks of memory, IP and the call stack alone, whatever STATUS is. -/
structure ControlInv (s : State) : Prop where
  memWf : Memory.wf s.mem
  ipBound : s.ip.toNat ≤ 4096
  stackBound : ∀ k, (entryAt s k).toNat ≤ 4096
  spBound : s.sp.toNat ≤ 16
  liveReturns : ∀ k, k < s.sp.toNat → FollowsCall s.mem (entryAt s k)

section

variable {s t : State} {op : Word}

/-! ### The updates that keep the part about memory, IP and the call stack -/

theorem ControlInv.congr (h : ControlInv s) (hmem : t.mem = s.mem) (hip : t.ip = s.ip) (hstack : t.stack = s.stack)
    (hsp : t.sp = s.sp) : ControlInv t where
  memWf := hmem ▸ h.memWf
  ipBound := hip ▸ h.ipBound
  stackBound k := entryAt_congr hstack k ▸ h.stackBound k
  spBound := hsp ▸ h.spBound
  liveReturns k hk := by
    rw [hmem, entryAt_congr hstack k]
    exact h.liveReturns k (hsp ▸ hk)

theorem ControlInv.setIp (h : ControlInv s) {a : Word} (ha : a.toNat ≤ 4096) : ControlInv (setIp s a) :=
  ⟨h.memWf, ha, h.stackBound, h.spBound, h.liveReturns⟩

/-- A fetch is from 4094 at most, so the advance stays within 4096 (R71, R72). -/
theorem ControlInv.advance (h : ControlInv s) (hf : fetch s = some op) : ControlInv (advance s) := by
  have hip : s.ip.toNat ≤ 4094 := ((fetch_eq_some_iff s op).1 hf).1
  have hadv := toNat_ip_add_two hf
  exact h.setIp (by change (s.ip + 2).toNat ≤ 4096; omega)

theorem ControlInv.popReturn (h : ControlInv s) (hsp : s.sp ≠ 0) : ControlInv (popReturn s) where
  memWf := h.memWf
  ipBound := h.ipBound
  stackBound := h.stackBound
  spBound := by
    rw [popReturn_sp, toNat_sp_sub_one hsp]
    exact Nat.le_trans (Nat.sub_le _ 1) h.spBound
  liveReturns k hk := by
    rw [popReturn_sp, toNat_sp_sub_one hsp] at hk
    exact h.liveReturns k (Nat.lt_of_lt_of_le hk (Nat.sub_le _ 1))

theorem ControlInv.pushReturn (h : ControlInv s) (hroom : s.sp.toNat < 16) {ret : Word} (hbound : ret.toNat ≤ 4096)
    (hcall : FollowsCall s.mem ret) : ControlInv (pushReturn s ret) where
  memWf := h.memWf
  ipBound := h.ipBound
  stackBound k := by
    rw [entryAt_pushReturn hroom]
    split
    · exact hbound
    · exact h.stackBound k
  spBound := by
    rw [pushReturn_sp, toNat_sp_add_one hroom]
    exact hroom
  liveReturns k hk := by
    rw [pushReturn_sp, toNat_sp_add_one hroom] at hk
    rw [pushReturn_mem, entryAt_pushReturn hroom]
    split
    · exact hcall
    · exact h.liveReturns k (by omega)

theorem toNat_addressOperand_le (nnn : MemAddr) : (addressOperand nnn).toNat ≤ 4096 := by
  have hlt : nnn.toNat < 2 ^ 12 := nnn.isLt
  rw [addressOperand, BitVec.toNat_setWidth_of_le (by decide)]
  omega

/-! ### What the words fetched say of the state after the cycle -/

/-- Two bytes before the advanced IP stands the word fetched. -/
theorem memRead16_before_advance (hf : fetch s = some op) :
    2 ≤ (s.ip + 2).toNat ∧ memRead16 s.mem ((s.ip + 2).toNat - 2) = some op := by
  rw [toNat_ip_add_two hf]
  exact ⟨Nat.le_add_left 2 _, hf⟩

/-- A fault of dispatch leaves a record that fits the state (R130, R135). -/
theorem faultRecordFits_of_raisedAtDispatch {k : FaultKind} (hsp : s.sp.toNat ≤ 16) (hf : fetch s = some op)
    (hk : RaisedAtDispatch s op k) : FaultRecordFits (faultEntry k s.ip op (advance s)) := by
  have hat : (advance s).ip = s.ip + 2 ∧ memRead16 s.mem s.ip.toNat = some op := ⟨rfl, hf⟩
  cases k with
  | stackOverflow => exact ⟨hk.1, BitVec.eq_of_toNat_eq (Nat.le_antisymm hsp hk.2), hat⟩
  | stackUnderflow => exact ⟨hk.1, hk.2, hat⟩
  | unimplementedOpcode => exact ⟨hk, hat⟩
  | fetchOutOfBounds => exact hk.elim

/-! ### The invariant, by STATUS -/

/-- The fault registers read 0 (R21, R118). -/
def NoFaultRecord (s : State) : Prop := s.faultKind = none ∧ s.faultOpcode = 0 ∧ s.faultIp = 0

/-- The part of the invariant that depends on STATUS. -/
def StatusInv (s : State) : Prop :=
  match s.status with
  | .idle => (s.ip = 0 ∧ s.sp = 0 ∧ s.stack = Vector.replicate 16 0) ∧ NoFaultRecord s
  | .running => NoFaultRecord s
  | .halted => (2 ≤ s.ip.toNat ∧ memRead16 s.mem (s.ip.toNat - 2) = some 0x0000) ∧ NoFaultRecord s
  | .faulted => FaultRecordFits s

theorem statusInv_of_idle (hs : s.status = .idle) (hclean : s.ip = 0 ∧ s.sp = 0 ∧ s.stack = Vector.replicate 16 0)
    (hclear : NoFaultRecord s) : StatusInv s := by
  rw [StatusInv, hs]
  exact ⟨hclean, hclear⟩

theorem statusInv_of_running (hr : s.status = .running) (hclear : NoFaultRecord s) : StatusInv s := by
  rw [StatusInv, hr]
  exact hclear

theorem machineInv_iff : MachineInv s ↔ ControlInv s ∧ StatusInv s := by
  unfold StatusInv
  constructor
  · intro h
    refine ⟨⟨h.memWf, h.ipBound, h.stackBound, h.spBound, h.liveReturns⟩, ?_⟩
    cases hs : s.status with
    | idle => exact ⟨h.idleClean hs, h.noRecord (by simp [hs])⟩
    | running => exact h.noRecord (by simp [hs])
    | halted => exact ⟨h.haltWord hs, h.noRecord (by simp [hs])⟩
    | faulted => exact h.record hs
  · rintro ⟨h, hst⟩
    refine ⟨h.memWf, h.ipBound, h.stackBound, h.spBound, fun hs => ?_, fun hs => ?_, fun hs => ?_, h.liveReturns,
      fun hs => ?_⟩
    · rw [hs] at hst
      exact hst.1
    · cases hs' : s.status with
      | idle | halted => rw [hs'] at hst; exact hst.2
      | running => rw [hs'] at hst; exact hst
      | faulted => exact absurd hs' hs
    · rwa [hs] at hst
    · rw [hs] at hst
      exact hst.1

/-! ### The core -/

theorem machineInv_step (h : MachineInv s) (hstep : step s = .next t) : MachineInv t := by
  obtain ⟨hc, hst⟩ := machineInv_iff.1 h
  have hclear : s.status = .running → NoFaultRecord s := fun hr => h.noRecord (by simp [hr])
  rw [machineInv_iff]
  cases stepRule_of_step hstep with
  | idle hs => exact ⟨hc, hst⟩
  | fetchFault hr hip => exact ⟨hc.congr rfl rfl rfl rfl, rfl, rfl, hip⟩
  | dispatchFault hr hf hk =>
    exact ⟨(hc.advance hf).congr rfl rfl rfl rfl, faultRecordFits_of_raisedAtDispatch hc.spBound hf hk⟩
  | halt hr hf =>
    exact ⟨(hc.advance hf).congr rfl rfl rfl rfl, memRead16_before_advance hf, hclear hr⟩
  | add hr hf => exact ⟨(hc.advance hf).congr rfl rfl rfl rfl, statusInv_of_running hr (hclear hr)⟩
  | pop hr hf hsp htop =>
    have hret := topReturn_eq_entryAt htop ▸ hc.stackBound (s.sp.toNat - 1)
    exact ⟨((hc.advance hf).popReturn hsp).setIp hret, statusInv_of_running hr (hclear hr)⟩
  | push hr hf hcall hroom =>
    obtain ⟨htwo, hread⟩ := memRead16_before_advance hf
    have hpush := (hc.advance hf).pushReturn hroom (hc.advance hf).ipBound ⟨htwo, _, hread, hcall⟩
    exact ⟨hpush.setIp (toNat_addressOperand_le _), statusInv_of_running hr (hclear hr)⟩

/-! ### The host (R111 to R117, R160) -/

theorem controlInv_reset : ControlInv State.reset where
  memWf := wf_reset
  ipBound := by decide
  stackBound k := by simp [entryAt_reset]
  spBound := by decide
  liveReturns k hk := absurd hk (Nat.not_lt_zero k)

theorem machineInv_reset : MachineInv State.reset :=
  machineInv_iff.2 ⟨controlInv_reset, ⟨rfl, rfl, rfl⟩, rfl, rfl, rfl⟩

/-- In IDLE no entry is live, so that memory may change under the stack. -/
theorem ControlInv.setMem_of_empty (h : ControlInv s) (hsp : s.sp = 0) {m : Memory} (hm : Memory.wf m) :
    ControlInv (setMem s m) :=
  ⟨hm, h.ipBound, h.stackBound, h.spBound, fun k hk => by simp [hsp] at hk⟩

theorem machineInv_hostStep (op : HostOp) (h : MachineInv s) : MachineInv (hostStep op s).2 := by
  obtain ⟨hc, -⟩ := machineInv_iff.1 h
  have hclear : s.status = .idle → NoFaultRecord s := fun hs => h.noRecord (by simp [hs])
  rcases hostStep_cases op s with heq | ⟨-, heq⟩ | ⟨_, _, m, -, hs, hw, heq⟩ | ⟨i, b, -, hs, heq⟩ | ⟨-, hs, heq⟩ <;>
    rw [heq]
  · exact h
  · exact machineInv_reset
  · obtain ⟨hip, hsp, hstack⟩ := h.idleClean hs
    have hload := hc.setMem_of_empty hsp (wf_memWrite16 hc.memWf hw)
    exact machineInv_iff.2 ⟨hload, statusInv_of_idle hs ⟨hip, hsp, hstack⟩ (hclear hs)⟩
  · exact machineInv_iff.2 ⟨hc.congr rfl rfl rfl rfl, statusInv_of_idle hs (h.idleClean hs) (hclear hs)⟩
  · exact machineInv_iff.2 ⟨hc.congr rfl rfl rfl rfl, hclear hs⟩

/-- The invariant holds in every reachable state. -/
theorem machineInv_of_reachable (h : Reachable s) : MachineInv s := by
  induction h with
  | reset => exact machineInv_reset
  | core _ hstep ih => exact machineInv_step ih hstep
  | host op _ ih => exact machineInv_hostStep op ih

end

/-- Settles O47: every bound holds of zero, and no entry is live. -/
theorem resetSatisfiesInvariant : Obligations.ResetSatisfiesInvariant := machineInv_reset

/-- Settles O48, rule by rule. -/
theorem stepKeepsInvariant : Obligations.StepKeepsInvariant := fun _ _ => machineInv_step

/-- Settles O49: outside IDLE only CREATE changes the state, and in IDLE the stack is empty. -/
theorem hostKeepsInvariant : Obligations.HostKeepsInvariant := fun op _ => machineInv_hostStep op

/-- Settles O50, by induction on how the state is reached; the invariant bounds SP, and within that bound the step
answers. -/
theorem reachableStatesAreSafe : Obligations.ReachableStatesAreSafe := fun _ h =>
  have hinv := machineInv_of_reachable h
  ⟨hinv, exists_step hinv.spBound⟩

end Sys2Proof.Machine
end

section
/-! PROOFS. Termination (R167): every cycle that goes on lowers `cyclesLeft`, which starts below 2 × 2048^17. -/

namespace Sys2Proof.Machine

/-- What an activation that stands at `a`, with `k` activations below it, may still cost: each cycle it has left at its
own level, with what a CALL there could cost (R167). -/
def levelCost (a : Word) (k : Nat) : Nat := slotsFrom a * (1 + activationBound (16 - k))

section

variable {s t : State}

theorem cyclesLeft_eq (s : State) :
    cyclesLeft s = levelCost s.ip s.sp.toNat + ∑ k ∈ Finset.range s.sp.toNat, levelCost (entryAt s k) k := rfl

/-- A level has at most 2048 slots, so that it costs no more than an activation entered there. -/
theorem levelCost_le (a : Word) {k : Nat} (hk : k ≤ 16) : levelCost a k ≤ activationBound (17 - k) := by
  have hsucc : 17 - k = 16 - k + 1 := by omega
  rw [hsucc, activationBound_succ]
  exact Nat.mul_le_mul_right _ (slotsFrom_le a)

/-! ### The bound under the updates of a cycle -/

/-- The advance takes one slot of the level, and with it what a CALL in that cycle could have cost (R72, R167). -/
theorem cyclesLeft_advance {op : Word} (hf : fetch s = some op) :
    cyclesLeft s = cyclesLeft (advance s) + (1 + activationBound (16 - s.sp.toNat)) := by
  have hip : s.ip.toNat ≤ 4094 := ((fetch_eq_some_iff s op).1 hf).1
  have hlevel : levelCost s.ip s.sp.toNat =
      levelCost (s.ip + 2) s.sp.toNat + (1 + activationBound (16 - s.sp.toNat)) := by
    rw [levelCost, levelCost, ← slotsFrom_advance hip, Nat.succ_mul]
  rw [cyclesLeft_eq s, hlevel, Nat.add_right_comm]
  rfl

/-- A pop gives up what the level it leaves has left, and resumes the level below where it stood (R101). -/
theorem cyclesLeft_popReturn {ret : Word} (hsp : s.sp ≠ 0) (htop : topReturn s = some ret) :
    cyclesLeft s = levelCost s.ip s.sp.toNat + cyclesLeft (setIp (popReturn s) ret) := by
  have hpos : 0 < s.sp.toNat := Nat.pos_of_ne_zero (BitVec.toNat_ne_iff_ne.2 hsp)
  have hsum : ∑ k ∈ Finset.range s.sp.toNat, levelCost (entryAt s k) k =
      ∑ k ∈ Finset.range (s.sp - 1).toNat, levelCost (entryAt s k) k + levelCost ret (s.sp - 1).toNat := by
    rw [topReturn_eq_entryAt htop, toNat_sp_sub_one hsp, ← Finset.sum_range_succ, Nat.sub_add_cancel hpos]
  rw [cyclesLeft_eq s, hsum, Nat.add_comm (Finset.sum _ _)]
  rfl

/-- A push adds the level it enters (R100). -/
theorem cyclesLeft_pushReturn (hroom : s.sp.toNat < 16) (a : Word) :
    cyclesLeft (setIp (pushReturn s s.ip) a) = levelCost a (s.sp.toNat + 1) + cyclesLeft s := by
  have hlive : ∑ k ∈ Finset.range s.sp.toNat, levelCost (entryAt (pushReturn s s.ip) k) k =
      ∑ k ∈ Finset.range s.sp.toNat, levelCost (entryAt s k) k := by
    refine Finset.sum_congr rfl fun k hk => ?_
    rw [entryAt_pushReturn hroom, if_neg (Nat.ne_of_lt (Finset.mem_range.1 hk))]
  have hentry : entryAt (pushReturn s s.ip) s.sp.toNat = s.ip := by rw [entryAt_pushReturn hroom, if_pos rfl]
  rw [cyclesLeft_eq, setIp_sp, pushReturn_sp, toNat_sp_add_one hroom, Finset.sum_range_succ]
  change levelCost a _ + (∑ k ∈ Finset.range s.sp.toNat, levelCost (entryAt (pushReturn s s.ip) k) k +
    levelCost (entryAt (pushReturn s s.ip) s.sp.toNat) s.sp.toNat) = _
  rw [hlive, hentry, cyclesLeft_eq s, Nat.add_comm (Finset.sum _ _)]

/-- A cycle that goes on has taken a slot, which pays for the level that it may have entered. -/
theorem cyclesLeft_step_lt (hr : s.status = .running) (h : step s = .next t) (ht : t.status = .running) :
    cyclesLeft t < cyclesLeft s := by
  cases stepRule_of_step h with
  | idle hs => exact absurd hr hs
  | fetchFault | dispatchFault | halt => cases ht
  | @add x y _ hf =>
    have hadv := cyclesLeft_advance hf
    change cyclesLeft (advance s) < cyclesLeft s
    omega
  | pop _ hf hsp htop =>
    have hadv := cyclesLeft_advance hf
    have hpop := cyclesLeft_popReturn (s := advance s) hsp htop
    omega
  | @push op _ hf _ hroom =>
    have hadv := cyclesLeft_advance hf
    have hpush := cyclesLeft_pushReturn (s := advance s) hroom (addressOperand (fieldNNN op))
    have hlevel := levelCost_le (addressOperand (fieldNNN op)) (k := s.sp.toNat + 1) hroom
    rw [Nat.add_sub_add_right 16 1] at hlevel
    change cyclesLeft (setIp (pushReturn (advance s) (advance s).ip) (addressOperand (fieldNNN op))) < cyclesLeft s
    rw [hpush, hadv, advance_sp]
    omega

/-! ### The whole run -/

/-- All 17 levels together cost less than 2 × 2048^17 - 1 cycles. -/
theorem sum_activationBound_lt : ∑ k ∈ Finset.range 17, activationBound (17 - k) + 1 < 2 * 2048 ^ 17 := by
  decide

/-- Each level costs no more than an activation entered there, and there are at most 17 (R18, R167). -/
theorem cyclesLeft_add_one_lt (hsp : s.sp.toNat ≤ 16) : cyclesLeft s + 1 < 2 * 2048 ^ 17 := by
  have hlevels : cyclesLeft s ≤ ∑ k ∈ Finset.range (s.sp.toNat + 1), activationBound (17 - k) := by
    rw [cyclesLeft_eq, Finset.sum_range_succ, Nat.add_comm]
    refine Nat.add_le_add (Finset.sum_le_sum fun k hk => levelCost_le _ ?_) (levelCost_le _ hsp)
    exact Nat.le_trans (Nat.le_of_lt (Finset.mem_range.1 hk)) hsp
  have hall : ∑ k ∈ Finset.range (s.sp.toNat + 1), activationBound (17 - k) ≤
      ∑ k ∈ Finset.range 17, activationBound (17 - k) :=
    Finset.sum_le_sum_of_subset (Finset.range_subset_range.2 (Nat.succ_le_succ hsp))
  exact Nat.lt_of_le_of_lt (Nat.succ_le_succ (Nat.le_trans hlevels hall)) sum_activationBound_lt

/-- A running core's step that does not go on has ended the run. -/
theorem step_running_or_ended (hr : s.status = .running) (h : step s = .next t) : t.status = .running ∨ Ended t := by
  cases stepRule_of_step h with
  | idle hs => exact absurd hr hs
  | fetchFault | dispatchFault => exact .inr (.inr rfl)
  | halt => exact .inr (.inl rfl)
  | add | pop | push => exact .inl hr

/-- A bound on the cycles left that do not end the run bounds the run, with one cycle more to end it. -/
theorem exists_ended_of_cyclesLeft_lt {c : Nat} (hinv : MachineInv s) (hr : s.status = .running)
    (hc : cyclesLeft s < c) : ∃ n t, n ≤ c ∧ stepN n s = .next t ∧ Ended t := by
  induction c generalizing s with
  | zero => exact absurd hc (Nat.not_lt_zero _)
  | succ c ih =>
    obtain ⟨u, hu⟩ := exists_step hinv.spBound
    rcases step_running_or_ended hr hu with hru | hend
    · have hlt : cyclesLeft u < c := Nat.lt_of_lt_of_le (cyclesLeft_step_lt hr hu hru) (Nat.le_of_lt_succ hc)
      obtain ⟨n, t, hn, ht, hend⟩ := ih (machineInv_step hinv hu) hru hlt
      exact ⟨n + 1, t, Nat.succ_le_succ hn, (stepN_succ_iff n s t).2 ⟨u, hu, ht⟩, hend⟩
    · exact ⟨1, u, Nat.le_add_left 1 c, (stepN_succ_iff 0 s u).2 ⟨u, hu, rfl⟩, hend⟩

end

/-- Settles O51. That the invariant holds is not needed: the bound falls from every running state. -/
theorem cycleLowersBound : Obligations.CycleLowersBound := fun _ _ _ => cyclesLeft_step_lt

/-- Settles O52: the invariant bounds SP, hence `cyclesLeft`, which every cycle but the last lowers. -/
theorem everyRunEnds : Obligations.EveryRunEnds := by
  intro s hreach hr
  have hinv := machineInv_of_reachable hreach
  obtain ⟨n, t, hn, ht, hend⟩ := exists_ended_of_cyclesLeft_lt hinv hr (Nat.lt_succ_self _)
  exact ⟨n, t, Nat.lt_of_le_of_lt hn (cyclesLeft_add_one_lt hinv.spBound), ht, hend⟩

end Sys2Proof.Machine
end

section
/-! PROOFS. The unimplemented opcodes by class (R56), and the assembler's words (R59). -/

namespace Sys2Proof

/-- Settles O1: the words, evaluated. -/
theorem specWordsDecode : Obligations.SpecWordsDecode := by
  unfold Obligations.SpecWordsDecode
  decide

/-! ### The classes of the rejected words (R56) -/

/-- The classes other than CALL's, as R56's table groups them. -/
theorem class_cases_of_ne_two {c : BitVec 4} (h : c ≠ 0x2) :
    c = 0x0 ∨ c = 0x1 ∨ (0x3 ≤ c ∧ c ≤ 0x7) ∨ c = 0x8 ∨ 0x9 ≤ c := by
  revert c
  decide

/-- A word that is rejected is the word of no instruction. -/
theorem encode_ne_of_rejected {op : Word} (h : decodeWord op = .error (.unimplementedOpcode op)) (i : Instr) :
    op ≠ encode i := by
  rintro rfl
  cases h.symm.trans (decodeWord_encode i)

/-- Settles O7: a rejected word is in a class of R56's table, and each of the four patterns is outside it. -/
theorem unimplementedSpaceByClass : Obligations.UnimplementedSpaceByClass := by
  intro op
  constructor
  · intro h
    have hcall : fieldC op ≠ 0x2 := fun hc => by cases h.symm.trans (Machine.decodeWord_of_fieldC_eq_two hc)
    rcases class_cases_of_ne_two hcall with hc | hc | hc | hc | hc
    · exact .inl ⟨hc, encode_ne_of_rejected h .halt, encode_ne_of_rejected h .ret⟩
    · exact .inr (.inl hc)
    · exact .inr (.inr (.inl hc))
    · refine .inr (.inr (.inr (.inl ⟨hc, fun hd => ?_⟩)))
      cases h.symm.trans (decodeWord_of_addRow ((addRow_matchesWord_iff op).2 ⟨hc, hd⟩))
    · exact .inr (.inr (.inr (.inr hc)))
  · intro h
    rcases decodeWord_cases op with ⟨rfl, -⟩ | ⟨hc, hd, -⟩ | ⟨rfl, -⟩ | ⟨hc, -⟩ | herr
    · exact absurd h (by decide)
    · simp [hc, hd] at h
    · exact absurd h (by decide)
    · simp [hc] at h
    · exact herr

/-! ### The words in the assembler's arithmetic (R59) -/

theorem toNat_append_eq_add {m n : Nat} (a : BitVec m) (b : BitVec n) : (a ++ b).toNat = a.toNat * 2 ^ n + b.toNat := by
  rw [BitVec.toNat_append, ← Nat.shiftLeft_add_eq_or_of_lt b.isLt, Nat.shiftLeft_eq]

theorem toNat_fieldOfReg (x : RegIndex) : (fieldOfReg x).toNat = x.val := Nat.mod_eq_of_lt x.isLt

/-- The word of ADD Vx, Vy is 0x8xy4 (R53, R90). -/
theorem encode_add_eq_ofNat (x y : RegIndex) :
    encode (.add x y) = BitVec.ofNat 16 (0x8004 + x.val * 2 ^ 8 + y.val * 2 ^ 4) := by
  have hx := x.isLt
  have hy := y.isLt
  apply BitVec.eq_of_toNat_eq
  rw [BitVec.toNat_ofNat, Nat.mod_eq_of_lt (by omega)]
  simp only [encode, toNat_append_eq_add, toNat_fieldOfReg, BitVec.toNat_ofNat]
  omega

theorem assemble_eq_none_iff (l : AsmLine) : assemble l = none ↔ l.wf = false := by
  cases hl : l.wf <;> simp [assemble, hl]

theorem assemble_toAsm (i : Instr) : assemble i.toAsm = some (encode i) := by
  refine (if_pos (Instr.wf_all i)).trans (congrArg some ?_)
  cases i with
  | halt => rfl
  | add x y =>
    have hsum : 0x8000 + x.val * 2 ^ 8 + y.val * 2 ^ 4 + 4 = 0x8004 + x.val * 2 ^ 8 + y.val * 2 ^ 4 := by omega
    rw [encode_add_eq_ofNat, ← hsum]
    rfl
  | ret => rfl
  | call nnn => exact (Machine.encode_call_eq_ofNat nnn).symm

/-- Settles O8: the encodings are the arithmetic's sums, and each check of a line is a bound on its operand. -/
theorem assemblerWordsAreEncodings : Obligations.AssemblerWordsAreEncodings := by
  refine ⟨assemble_toAsm, fun v => ?_, fun x y => ?_, fun nnn => ?_, fun v => ?_⟩
  · have hwf : (AsmLine.word v.toNat).wf = true := decide_eq_true v.isLt
    exact (if_pos hwf).trans (congrArg some (BitVec.ofNat_toNat 16 v))
  · rw [assemble_eq_none_iff]
    simp [AsmLine.wf, regOperandOk, imp_iff_not_or]
  · simp [assemble_eq_none_iff, AsmLine.wf, addrOperandOk]
  · simp [assemble_eq_none_iff, AsmLine.wf, wordOperandOk]

end Sys2Proof
end

section
/-! PROOFS. What each meaning writes, and its frame (R12, R16, R75, R90, R100, R101). -/

namespace Sys2Proof.Machine

variable {s t : State}

/-! ### ADD (R90) -/

/-- ADD's effect in the numbers of R90: the sum modulo 256, then the carry. -/
theorem exec_add_eq (x y : RegIndex) (s : State) :
    exec (.add x y) s = .next { s with
      v := (s.v.set x (BitVec.ofNat 8 ((s.v[x].toNat + s.v[y].toNat) % 256))).set 15
        (if 256 ≤ s.v[x].toNat + s.v[y].toNat then 1 else 0) } := by
  have hsum : aluSum s.v[x] s.v[y] = BitVec.ofNat 8 ((s.v[x].toNat + s.v[y].toNat) % 256) := by
    rw [← toNat_aluSum, BitVec.ofNat_toNat, BitVec.setWidth_eq]
  rw [exec, execAdd_eq, readReg_eq, readReg_eq, hsum, aluCarry_eq_ite]
  rfl

/-- Settles O10: the ALU's sum and carry are remainder and comparison, and the cycle is the meaning from the advanced
state. -/
theorem addWritesSumThenCarry : Obligations.AddWritesSumThenCarry := by
  refine fun x y s => ⟨encode_add_eq_ofNat x y, exec_add_eq x y s, fun hr hf => ?_⟩
  rw [step_of_fetch_encode hr hf]
  exact exec_add_eq x y (advance s)

/-- The two register writes of ADD leave every other register (R90). -/
theorem exec_add_frame {x y i : RegIndex} (h : exec (.add x y) s = .next t) (hx : i ≠ x) (hflag : i ≠ 15) :
    t.v[i] = s.v[i] := by
  cases h.symm.trans (execAdd_eq x y s)
  rw [getElem_writeReg_of_ne hflag.symm, getElem_writeReg_of_ne hx.symm]

/-- Settles O14: ADD is two register writes. -/
theorem addFrame : Obligations.AddFrame := by
  intro x y s t h
  refine ⟨fun i hx hflag => exec_add_frame h hx hflag, ?_⟩
  cases h.symm.trans (execAdd_eq x y s)
  exact ⟨fun _ => rfl, rfl, rfl, rfl, rfl, rfl, rfl, rfl⟩

/-- Whatever its destination, ADD leaves the carry in the flag register (the spec's decision D6). -/
theorem exec_add_flag (x y : RegIndex) (s : State) :
    ∃ t, exec (.add x y) s = .next t ∧ t.v[15] = (if 256 ≤ s.v[x].toNat + s.v[y].toNat then 1 else 0) :=
  ⟨_, execAdd_eq x y s, (getElem_writeReg_self _ 15 _).trans (aluCarry_eq_ite s.v[x] s.v[y])⟩

/-- Settles O16: the flag's write comes last, and both operands are read before either write. -/
theorem flagAsDestinationAndSource : Obligations.FlagAsDestinationAndSource := by
  refine fun s => ⟨fun y => exec_add_flag 15 y s, ?_, fun x hx => ?_⟩
  · obtain ⟨t, ht, hflag⟩ := exec_add_flag 15 15 s
    have hdouble : 256 ≤ s.v[15].toNat + s.v[15].toNat ↔ 128 ≤ s.v[15].toNat := by omega
    exact ⟨t, ht, hflag.trans (if_congr hdouble rfl rfl)⟩
  · obtain ⟨t, ht, hsum, hflag⟩ := exec_add_writes hx 15 s
    exact ⟨t, ht, (congrArg BitVec.toNat hsum).trans (toNat_aluSum _ _), hflag.trans (aluCarry_eq_ite _ _)⟩

/-- Settles O18: of the rules of a step, ADD's alone writes a register. -/
theorem registersChangeOnlyByAdd : Obligations.RegistersChangeOnlyByAdd := by
  intro s t h hne
  cases stepRule_of_step h with
  | @add x y hr hf =>
    have hexec := (step_of_fetch_encode hr hf).symm.trans h
    exact ⟨x, y, hr, hf, fun i hx hflag => exec_add_frame (s := advance s) hexec hx hflag⟩
  | idle | fetchFault | dispatchFault | halt | pop | push => exact absurd rfl hne

/-! ### HALT, CALL and RET (R75, R100, R101, R135) -/

/-- No meaning writes memory, and none but ADD's a register (R12, R36). -/
theorem exec_regs_mem {i : Instr} (h : exec i s = .next t) (hadd : ∀ x y, i ≠ .add x y) :
    t.v = s.v ∧ t.mem = s.mem := by
  rcases exec_cases h with ⟨-, rfl⟩ | ⟨x, y, hi, -⟩ | ⟨-, -, rfl⟩ | ⟨_, -, -, -, rfl⟩ | ⟨_, -, -, rfl⟩ | ⟨_, -, -, rfl⟩
  case inr.inl => exact absurd hi (hadd x y)
  all_goals exact ⟨rfl, rfl⟩

/-- The clause of the frame for HALT (R75). -/
theorem exec_halt_frame (h : exec .halt s = .next t) :
    t.stack = s.stack ∧ t.sp = s.sp ∧
      t.faultKind = s.faultKind ∧ t.faultOpcode = s.faultOpcode ∧ t.faultIp = s.faultIp := by
  cases h
  exact ⟨rfl, rfl, rfl, rfl, rfl⟩

/-- The clause of the frame for RET: it faults where the stack is empty, and pops where it is not (R101). -/
theorem exec_ret_frame (h : exec .ret s = .next t) :
    t.stack = s.stack ∧ (s.sp = 0 → t.sp = s.sp) ∧
      (s.sp ≠ 0 → t.status = s.status ∧
        t.faultKind = s.faultKind ∧ t.faultOpcode = s.faultOpcode ∧ t.faultIp = s.faultIp) := by
  rcases exec_cases h with ⟨⟨⟩, -⟩ | ⟨_, _, ⟨⟩, -⟩ | ⟨-, hsp, rfl⟩ | ⟨_, -, hsp, -, rfl⟩ | ⟨_, ⟨⟩, -⟩ | ⟨_, ⟨⟩, -⟩
  · exact ⟨rfl, fun _ => rfl, fun hne => absurd hsp hne⟩
  · exact ⟨rfl, fun h0 => absurd h0 hsp, fun _ => ⟨rfl, rfl, rfl, rfl⟩⟩

/-- The clause of the frame for CALL: it faults where the stack is full, and pushes where it is not (R100). -/
theorem exec_call_frame {nnn : MemAddr} (h : exec (.call nnn) s = .next t) :
    (∀ k, k ≠ s.sp.toNat → entryAt t k = entryAt s k) ∧ (16 ≤ s.sp.toNat → t.stack = s.stack ∧ t.sp = s.sp) ∧
      (s.sp.toNat < 16 → t.status = s.status ∧
        t.faultKind = s.faultKind ∧ t.faultOpcode = s.faultOpcode ∧ t.faultIp = s.faultIp) := by
  rcases exec_cases h with ⟨⟨⟩, -⟩ | ⟨_, _, ⟨⟩, -⟩ | ⟨⟨⟩, -⟩ | ⟨_, ⟨⟩, -⟩ | ⟨_, -, hfull, rfl⟩ | ⟨_, -, hroom, rfl⟩
  · exact ⟨fun _ _ => rfl, fun _ => ⟨rfl, rfl⟩, fun hroom => absurd hfull (Nat.not_le.2 hroom)⟩
  · exact ⟨fun k hk => (entryAt_pushReturn hroom s.ip k).trans (if_neg hk),
      fun hfull => absurd hfull (Nat.not_le.2 hroom), fun _ => ⟨rfl, rfl, rfl, rfl⟩⟩

/-- Settles O15, instruction by instruction. -/
theorem haltCallRetFrame : Obligations.HaltCallRetFrame := by
  intro i s t h hadd
  obtain ⟨hv, hmem⟩ := exec_regs_mem h hadd
  refine ⟨fun j => by rw [hv], fun a => by rw [hmem], ?_, ?_, ?_⟩
  · rintro rfl
    exact exec_halt_frame h
  · rintro rfl
    exact exec_ret_frame h
  · rintro nnn rfl
    exact exec_call_frame h

/-- Settles O13: above 16 there is no entry at SP - 1. -/
theorem retStopsBeyondStack : Obligations.RetStopsBeyondStack := by
  intro s hsp
  have hne : s.sp ≠ 0 := BitVec.toNat_ne_iff_ne.1 (Nat.ne_of_gt (Nat.zero_lt_of_lt hsp))
  have hnone : topReturn s = none := Vector.getElem?_eq_none (Nat.le_sub_one_of_lt hsp)
  exact execRet_of_noEntry hne hnone

end Sys2Proof.Machine
end

section
/-! PROOFS. The cycle and its outcomes (R70 to R78), the kinds of fault (R130), STATUS (R20, R120), and even addresses
(R15). -/

namespace Sys2Proof.Machine

variable {s t : State} {op : Word}

/-! ### The fetch and the step (R70, R71) -/

/-- Settles O19: the two bytes are the word fetched, and the cycle dispatches on what it decodes to. -/
theorem stepRunsDecodedInstruction : Obligations.StepRunsDecodedInstruction := by
  intro s i hr hip hbytes
  obtain ⟨hd, -⟩ := (decodeBytes_eq_ok_iff _ _ [] i []).1 hbytes
  exact (step_of_fetch hr ((fetch_eq_some_iff s _).2 ⟨hip, rfl⟩)).trans (runOpcode_of_ok hd s)

/-- Settles O20. -/
theorem stepIdlesOutsideRun : Obligations.StepIdlesOutsideRun := fun _ => step_of_not_running

/-- Settles O21: where the fetch has no two bytes to read, the rule of the fetch fault applies. -/
theorem fetchReadsOrFaults : Obligations.FetchReadsOrFaults := fun s =>
  ⟨fun hip => (fetch_eq_some_iff s _).2 ⟨hip, rfl⟩,
    fun hip => ⟨(fetch_eq_none_iff s).2 hip, fun hr => step_of_stepRule (.fetchFault hr hip)⟩⟩

/-! ### The outcomes of a cycle (R20, R78) -/

/-- Where a step of a running core leaves STATUS, with what it fetched and recorded. -/
theorem step_status_cases (hr : s.status = .running) (h : step s = .next t) :
    (t.status = .running ∧ t.faultKind = s.faultKind) ∨
    (t.status = .halted ∧ t.faultKind = s.faultKind ∧ fetch s = some 0x0000) ∨
    (t.status = .faulted ∧ t.faultKind.isSome) := by
  cases stepRule_of_step h with
  | idle hs => exact absurd hr hs
  | fetchFault | dispatchFault => exact .inr (.inr ⟨rfl, rfl⟩)
  | halt _ hf => exact .inr (.inl ⟨rfl, rfl, hf⟩)
  | add | pop | push => exact .inl ⟨hr, rfl⟩

/-- Settles O24: SP in its range leaves RET an entry to pop, so that the step answers. -/
theorem cycleHasOneOfThreeOutcomes : Obligations.CycleHasOneOfThreeOutcomes := by
  intro s hr hsp
  obtain ⟨t, h⟩ := exists_step hsp
  refine ⟨t, h, ?_⟩
  rcases step_status_cases hr h with hrun | ⟨hhalt, hkind, -⟩ | hfault
  · exact .inl hrun
  · exact .inr (.inl ⟨hhalt, hkind⟩)
  · exact .inr (.inr hfault)

/-- Settles O25: the core leaves RUNNING alone, and of the host's operations RUN and CREATE alone set STATUS. -/
theorem statusTransitions : Obligations.StatusTransitions := by
  refine ⟨⟨rfl, rfl, rfl, rfl⟩, fun s t h => ?_, fun op s => ?_, fun s => ⟨rfl, fun hs => ?_⟩⟩
  · by_cases hr : s.status = .running
    · rcases step_status_cases hr h with ⟨hrun, -⟩ | ⟨hhalt, -, hf⟩ | hfault
      · exact .inl (hrun.trans hr.symm)
      · exact .inr (.inl ⟨hr, hhalt, hf⟩)
      · exact .inr (.inr ⟨hr, hfault⟩)
    · cases h.symm.trans (step_of_not_running hr)
      exact .inl rfl
  · rcases hostStep_cases op s with heq | ⟨hop, heq⟩ | ⟨_, _, _, -, -, -, heq⟩ | ⟨_, _, -, -, heq⟩ | ⟨hop, hs, heq⟩ <;>
      rw [heq]
    · exact .inl rfl
    · exact .inr (.inr ⟨hop, rfl⟩)
    · exact .inl rfl
    · exact .inl rfl
    · exact .inr (.inl ⟨hop, hs, rfl⟩)
  · rw [hostStep_run hs]
    rfl

/-! ### The end of a run (R120, R138) -/

theorem stepN_of_not_running (hs : s.status ≠ .running) (n : Nat) : stepN n s = .next s := by
  induction n with
  | zero => rfl
  | succ n ih => exact (stepN_succ_iff n s s).2 ⟨s, step_of_not_running hs, ih⟩

/-- Outside IDLE every operation but CREATE and REG_READ is rejected (R111). -/
theorem hostAccepts_of_ne_idle {op : HostOp} (hs : s.status ≠ .idle) (h : hostAccepts op s = true) :
    op = .create ∨ ∃ i, op = .regRead i := by
  cases op with
  | create => exact .inl rfl
  | regRead i => exact .inr ⟨i, rfl⟩
  | load | regWrite | run => simp [hostAccepts, hs] at h

/-- Settles O26: an ended core is neither RUNNING, so that its step is the rule of idling, nor IDLE, so that the host
can only read or create. -/
theorem endedRunIsFinal : Obligations.EndedRunIsFinal := by
  intro s hend
  have hrun : s.status ≠ .running := by rcases hend with hs | hs <;> simp [hs]
  have hidle : s.status ≠ .idle := by rcases hend with hs | hs <;> simp [hs]
  refine ⟨stepN_of_not_running hrun, fun op hop => ?_, fun op => hostAccepts_of_ne_idle hidle⟩
  rcases hostStep_cases op s with heq | ⟨hcreate, -⟩ | ⟨_, _, _, -, hs, -⟩ | ⟨_, _, -, hs, -⟩ | ⟨-, hs, -⟩
  · exact heq
  · exact absurd hcreate hop
  · exact absurd hs hidle
  · exact absurd hs hidle
  · exact absurd hs hidle

/-! ### Which fault is raised (R130) -/

/-- A running core's step records a fault of a kind exactly where the fetch or the dispatch raises that kind: the rules
exclude each other, since the step answers one state. -/
theorem step_faulted_iff (hr : s.status = .running) (h : step s = .next t) (k : FaultKind) :
    (t.status = .faulted ∧ t.faultKind = some k) ↔
      (k = .fetchOutOfBounds ∧ 4094 < s.ip.toNat) ∨ ∃ op, fetch s = some op ∧ RaisedAtDispatch s op k := by
  constructor
  · rintro ⟨hst, hkind⟩
    cases stepRule_of_step h with
    | idle hs => exact absurd hr hs
    | fetchFault _ hip => exact .inl ⟨(Option.some.inj hkind).symm, hip⟩
    | dispatchFault _ hf hk => exact .inr ⟨_, hf, Option.some.inj hkind ▸ hk⟩
    | halt => cases hst
    | add | pop | push => cases hst.symm.trans hr
  · rintro (⟨rfl, hip⟩ | ⟨op, hf, hk⟩)
    · cases h.symm.trans (step_of_stepRule (.fetchFault hr hip))
      exact ⟨rfl, rfl⟩
    · cases h.symm.trans (step_of_raisedAtDispatch hr hf hk)
      exact ⟨rfl, rfl⟩

/-- A fault of dispatch records the word (R22). -/
theorem recordedOpcode_of_ne_fetch {k : FaultKind} (hk : k ≠ .fetchOutOfBounds) (op : Word) :
    recordedOpcode k op = op := by
  cases k with
  | stackOverflow | stackUnderflow | unimplementedOpcode => rfl
  | fetchOutOfBounds => exact absurd rfl hk

/-- The record of a fault: where the cycle started and what it fetched, 0 where it fetched nothing (R22, R23, R137). -/
theorem step_fault_record (hr : s.status = .running) (h : step s = .next t) (ht : t.status = .faulted) :
    t.faultIp = s.ip ∧ (t.faultKind = some .fetchOutOfBounds → t.faultOpcode = 0 ∧ t.ip = s.ip) ∧
      (t.faultKind ≠ some .fetchOutOfBounds → fetch s = some t.faultOpcode ∧ t.ip.toNat = s.ip.toNat + 2) := by
  rcases step_faulted_cases hr h ht with rfl | ⟨k, op, hk, hf, rfl⟩
  · exact ⟨rfl, fun _ => ⟨rfl, rfl⟩, fun hne => absurd rfl hne⟩
  · refine ⟨rfl, fun heq => absurd (Option.some.inj heq) hk, fun _ => ⟨?_, toNat_ip_add_two hf⟩⟩
    rw [faultEntry_faultOpcode, recordedOpcode_of_ne_fetch hk, hf]

/-- Settles O27: the step records exactly the kinds that the fetch and the dispatch raise. -/
theorem faultTable : Obligations.FaultTable := by
  refine ⟨⟨rfl, rfl, rfl, rfl, rfl⟩, fun s t hr h => ?_⟩
  have hiff := step_faulted_iff hr h
  refine ⟨(hiff _).trans ?_, (hiff _).trans ?_, (hiff _).trans ?_, (hiff _).trans ?_, step_fault_record hr h⟩
  · simp only [RaisedAtDispatch, fieldC_eq_two_iff_mask, reduceCtorEq, false_and, false_or]
  · simp [RaisedAtDispatch]
  · simp [RaisedAtDispatch, decodeWord_eq_error_iff_matchesNoRow]
  · simp [RaisedAtDispatch]

/-! ### Even addresses (R15) -/

theorem toNat_addressOperand_fieldNNN (op : Word) : (addressOperand (fieldNNN op)).toNat = op.toNat % 4096 := by
  rw [addressOperand, BitVec.toNat_setWidth_of_le (by decide), fieldNNN, BitVec.extractLsb'_toNat]
  simp

/-- Settles O46: the advance keeps parity, RET takes a live entry, and CALL saves the advanced IP and takes its even
target. -/
theorem evenInstructionPointerStays : Obligations.EvenInstructionPointerStays := by
  intro s t hsp hip hlive htarget h
  have hadv : ∀ {op}, fetch s = some op → (s.ip + 2).toNat % 2 = 0 := fun hf => by
    rw [toNat_ip_add_two hf, Nat.add_mod_right, hip]
  cases stepRule_of_step h with
  | idle | fetchFault => exact ⟨hip, hlive⟩
  | dispatchFault _ hf => exact ⟨hadv hf, hlive⟩
  | halt _ hf => exact ⟨hadv hf, hlive⟩
  | add _ hf => exact ⟨hadv hf, hlive⟩
  | pop _ hf hne htop =>
    have hpos : 0 < s.sp.toNat := Nat.pos_of_ne_zero (BitVec.toNat_ne_iff_ne.2 hne)
    refine ⟨topReturn_eq_entryAt htop ▸ hlive (s.sp.toNat - 1) (by omega), fun k hk => hlive k ?_⟩
    have hk : k < s.sp.toNat - 1 := toNat_sp_sub_one hne ▸ hk
    omega
  | push _ hf hcall hroom =>
    have heven := htarget _ hf (fieldC_eq_two_iff_mask.1 hcall)
    refine ⟨?_, fun k hk => ?_⟩
    · rw [setIp_ip, toNat_addressOperand_fieldNNN]
      omega
    · have hk : k < s.sp.toNat + 1 := toNat_sp_add_one hroom ▸ hk
      change (entryAt (pushReturn (advance s) (s.ip + 2)) k).toNat % 2 = 0
      rw [entryAt_pushReturn (s := advance s) hroom, advance_sp]
      by_cases htop : k = s.sp.toNat
      · rw [if_pos htop, hadv hf]
      · rw [if_neg htop]
        exact hlive k (by omega)

end Sys2Proof.Machine
end

section
/-! PROOFS. Memory, continued (spec/20_memory.md): overlapping accesses (R32), and the canonical form is unique (log
entry 7). -/

namespace Sys2Proof.Machine

/-- Settles O31: a write sets its own two cells and no other. -/
theorem overlappingAccessesShareBytes : Obligations.OverlappingAccessesShareBytes := by
  intro m m₁ m₂ a u w hwf hw₁
  have hread₁ := memByte_memWrite16 hwf hw₁
  have hwf₁ := wf_memWrite16 hwf hw₁
  refine ⟨fun hw₂ => ?_, fun hw₂ => ?_⟩
  · have hread₂ := memByte_memWrite16 hwf₁ hw₂
    have ha : a + 2 ≤ 4094 := (memWrite16_isSome_iff m₁ (a + 2) w).1 (by simp [hw₂])
    have hlow : memByte m₂ (a + 1) = lowByte u := by simp [hread₂, hread₁]
    have hhigh : memByte m₂ (a + 2) = highByte w := by simp [hread₂]
    exact (memRead16_eq_some_iff _ _ _).2 ⟨by omega, by rw [hlow, hhigh]; rfl⟩
  · have hread₂ := memByte_memWrite16 hwf₁ hw₂
    have hfirst : memByte m₂ a = memByte m₁ a := by
      rw [hread₂, if_neg (by omega), if_neg (by omega)]
    exact ⟨by simp [hfirst, hread₁], by simp [hread₂], by simp [hread₂]⟩

/-! ### The list of a canonical memory, from what it reads -/

/-- A memory with rising addresses lists a cell with the byte that is read there. -/
theorem memByte_of_mem {m : Memory} (h : (m.map Prod.fst).Pairwise (· < ·)) {c : Host.Cell} (hc : c ∈ m) :
    memByte m c.1 = c.2 := by
  induction m with
  | nil => cases hc
  | cons d rest ih =>
    rcases List.mem_cons.1 hc with rfl | hrest
    · exact if_pos rfl
    · have hne : c.1 ≠ d.1 := Nat.ne_of_gt (above_of_sorted h c hrest)
      exact (if_neg hne).trans (ih (sorted_tail h) hrest)

/-- A byte read that is not an unlisted cell's is listed. -/
theorem mem_of_memByte_ne {m : Memory} {a : Nat} (h : memByte m a ≠ unlistedByte) : (a, memByte m a) ∈ m := by
  induction m with
  | nil => exact absurd rfl h
  | cons d rest ih =>
    obtain ⟨b, w⟩ := d
    by_cases hab : a = b
    · simp [memByte, hab]
    · simp only [memByte, if_neg hab] at h ⊢
      exact List.mem_cons_of_mem _ (ih h)

/-- The cells of a canonical memory are the addresses below 4096 that do not read as unlisted. -/
theorem mem_iff_memByte {m : Memory} (h : Memory.wf m) (c : Host.Cell) :
    c ∈ m ↔ c.1 < 4096 ∧ c.2 ≠ unlistedByte ∧ memByte m c.1 = c.2 := by
  obtain ⟨hsorted, hcells⟩ := h
  constructor
  · intro hc
    exact ⟨(hcells c hc).1, (hcells c hc).2, memByte_of_mem hsorted hc⟩
  · rintro ⟨-, hne, hread⟩
    have hmem := mem_of_memByte_ne (hread ▸ hne)
    rwa [hread] at hmem

/-- Settles O32: memories that read alike list the same cells, in the one order of their addresses. -/
theorem canonicalMemoryIsUnique : Obligations.CanonicalMemoryIsUnique := by
  intro m m' h h' hread
  have hcells : ∀ c, c ∈ m ↔ c ∈ m' := fun c => by
    rw [mem_iff_memByte h, mem_iff_memByte h']
    exact and_congr_right fun hlt => by rw [hread c.1 hlt]
  have hirrefl : Std.Irrefl fun c d : Host.Cell => c.1 < d.1 := ⟨fun c => Nat.lt_irrefl c.1⟩
  exact (List.pairwise_map.1 h.1).eq_of_mem_iff (List.pairwise_map.1 h'.1) hcells

end Sys2Proof.Machine
end

section
/-! PROOFS. The host interface, continued (R111 to R119, R160, R162). -/

namespace Sys2Proof.Machine

variable {s t : State}

/-! ### When an operation is accepted (R111) -/

/-- Settles O33: the table is `hostAccepts`, and no accepted operation's reply is an error. -/
theorem hostAcceptTable : Obligations.HostAcceptTable := by
  refine fun s => ⟨rfl, fun a w ha => ?_, fun i b => beq_iff_eq, fun i => ?_, beq_iff_eq,
    fun op => hostStep_of_rejected, fun op hacc => ?_⟩
  · have hrange : a.toNat + 1 < 4096 := by omega
    simp [hostAccepts, hrange]
  · cases hs : s.status <;> simp [hostAccepts, hs]
  · rw [hostStep_of_accepted hacc]
    cases op <;> simp [hostValue]

/-- Settles O35: 4095 leaves no room for the second byte. -/
theorem loadAtLastByteIsRejected : Obligations.LoadAtLastByteIsRejected := by
  intro s w
  have hrej : hostAccepts (.load 4095 w) s = false := by simp [hostAccepts]
  exact hostStep_of_rejected hrej

theorem hostStep_regRead (hs : s.status ≠ .running) (i : RegIndex) :
    hostStep (.regRead i) s = (.value s.v[i], s) :=
  hostStep_of_accepted (bne_iff_ne.2 hs)

/-- Settles O37: the three are the STATUS values other than RUNNING. -/
theorem regReadReturnsRegister : Obligations.RegReadReturnsRegister := by
  intro s i hs
  have hne : s.status ≠ .running := by rcases hs with hs | hs | hs <;> simp [hs]
  exact hostStep_regRead hne i

/-! ### What the host can reach and learn (R117, R118) -/

/-- Acceptance and the value of a reply are functions of STATUS and the registers. -/
theorem hostStep_reply_congr (op : HostOp) (hv : s.v = t.v) (hst : s.status = t.status) :
    (hostStep op s).1 = (hostStep op t).1 := by
  have hacc : hostAccepts op s = hostAccepts op t := by cases op <;> simp [hostAccepts, hst]
  have hval : hostValue op s = hostValue op t := by cases op <;> simp [hostValue, hv]
  cases h : hostAccepts op t with
  | false => rw [hostStep_of_rejected h, hostStep_of_rejected (hacc.trans h)]
  | true => rw [hostStep_of_accepted h, hostStep_of_accepted (hacc.trans h), hval]

/-- Settles O39: the operations other than CREATE set memory, a register or STATUS. -/
theorem hostCannotReachTheRest : Obligations.HostCannotReachTheRest := by
  refine ⟨fun op s hop => ?_, fun op s t => hostStep_reply_congr op⟩
  rcases hostStep_cases op s with heq | ⟨hcreate, -⟩ | ⟨_, _, _, -, -, -, heq⟩ | ⟨_, _, -, -, heq⟩ | ⟨-, -, heq⟩
  case inr.inl => exact absurd hcreate hop
  all_goals
    rw [heq]
    exact ⟨rfl, rfl, rfl, rfl, rfl, rfl⟩

/-! ### From reset (R160, R162) -/

/-- Settles O40: CREATE answers the state after reset. -/
theorem createZeroesEverything : Obligations.CreateZeroesEverything := fun _ =>
  ⟨State.reset, rfl, fun i => Vector.getElem_replicate i.isLt, fun _ => rfl, rfl,
    fun _ hk => Vector.getElem_replicate hk, rfl, rfl, rfl⟩

/-- Settles O41: memory reads as 0x0000, which is HALT. -/
theorem emptyRunHaltsAtOnce : Obligations.EmptyRunHaltsAtOnce := fun _ =>
  step_of_stepRule (.halt (s := setStatus State.reset .running) rfl rfl)

theorem tableWord_sixteen (w : Word) : tableWord 16 w.toNat = w := by
  rw [tableWord, Nat.mod_eq_of_lt w.isLt, BitVec.ofNat_toNat, BitVec.setWidth_eq]

/-- Where IP can be fetched from, the word is placed there and IP is kept (log entry 2). -/
theorem placeWord_of_write {w : Word} {m : Memory} (hip : s.ip.toNat + 1 < 4096)
    (hw : memWrite16 s.mem s.ip.toNat w = some m) : placeWord s w = setStatus (setIp (setMem s m) s.ip) .running := by
  simp only [placeWord, if_pos hip, hw]

/-- Settles O43: both write the word at 0 and set STATUS to RUNNING; IP is 0 from the start. -/
theorem placedWordIsLoadThenRun : Obligations.PlacedWordIsLoadThenRun := by
  intro w
  obtain ⟨m, hw⟩ := Option.isSome_iff_exists.1 ((memWrite16_isSome_iff [] 0 w).2 (by decide))
  have hplace : State.reset.withFetchWord 16 w.toNat = setStatus (setMem State.reset m) .running := by
    rw [State.withFetchWord, tableWord_sixteen, placeWord_of_write (by decide) hw]
    rfl
  have hsession : hostSession [.load 0 w, .run] State.reset = setStatus (setMem State.reset m) .running := by
    have hload : hostStep (.load 0 w) State.reset = (.accepted, setMem State.reset m) := hostStep_load rfl hw
    rw [hostSession, hload, hostSession, hostStep_run rfl]
    rfl
  rw [hplace, hsession]
  exact ⟨rfl, memRead16_of_memWrite16 wf_reset hw⟩

/-! ### The ports (R119) -/

theorem portStep_of_presentedOp {p : PortIn} {op : HostOp} (h : presentedOp p = some op) (s : State) :
    portStep p s = (portsOf (hostStep op s).1 (hostStep op s).2, (hostStep op s).2) := by
  rw [portStep, h]

theorem portStep_of_noOp {p : PortIn} (h : presentedOp p = none) (s : State) :
    portStep p s = (portsOf .accepted s, s) := by
  rw [portStep, h]

theorem portsOf_outs (r : HostReply) (s : State) : (portsOf r s).outs = outputs s := by
  cases r <;> rfl

theorem portsOf_cmdErr_iff (r : HostReply) (s : State) : (portsOf r s).cmdErr = true ↔ r = .rejected := by
  cases r <;> simp [portsOf]

theorem portsOf_regRdata_iff (r : HostReply) (s : State) (b : Byte) :
    (portsOf r s).regRdata = some b ↔ r = .value b := by
  cases r <;> simp [portsOf]

/-- The command code names the operation (R119). -/
theorem commandOf_eq {p : PortIn} {op : HostOp}
    (h : (p.cmd = 0 ∧ op = .load p.addr p.wdata) ∨
      (p.cmd = 1 ∧ ∃ i : RegIndex, i.val = p.regIdx.toNat ∧ op = .regWrite i p.regWdata) ∨
      (p.cmd = 2 ∧ ∃ i : RegIndex, i.val = p.regIdx.toNat ∧ op = .regRead i) ∨ (p.cmd = 3 ∧ op = .run)) :
    commandOf p = op := by
  rcases h with ⟨hc, rfl⟩ | ⟨hc, i, hi, rfl⟩ | ⟨hc, i, hi, rfl⟩ | ⟨hc, rfl⟩
  · simp [commandOf, hc]
  · simp [commandOf, hc, regOfField, ← hi]
  · simp [commandOf, hc, regOfField, ← hi]
  · simp [commandOf, hc]

/-- Settles O42: the port step is the step of the operation presented, and the output ports show its reply. -/
theorem portsCarryOperations : Obligations.PortsCarryOperations := by
  refine fun p s => ⟨fun hrst => ?_, fun hrst hvalid => ?_, fun hrst hvalid op hop => ?_, ?_⟩
  · have hp : presentedOp p = some .create := by simp [presentedOp, hrst]
    rw [portStep_of_presentedOp hp]
    rfl
  · have hp : presentedOp p = none := by simp [presentedOp, hrst, hvalid]
    rw [portStep_of_noOp hp]
    exact ⟨rfl, rfl⟩
  · have hp : presentedOp p = some op := by simp [presentedOp, hrst, hvalid, commandOf_eq hop]
    rw [portStep_of_presentedOp hp]
    exact ⟨rfl, portsOf_cmdErr_iff _ _, portsOf_regRdata_iff _ _⟩
  · cases hp : presentedOp p with
    | none => rw [portStep_of_noOp hp, portsOf_outs]
    | some op => rw [portStep_of_presentedOp hp, portsOf_outs]

end Sys2Proof.Machine
end
